-- ==== Sys2Proof/Word.lean ====
section
/-! DEFINITION. The words the block's ports and registers carry, the atomic symbol `Bit`, and the
run of equal bits in which long emissions are held (rules R6, R8, R9). -/

namespace Sys2Proof

/-- R8: "the atomic symbol of this system — a 0 or 1 value"; `true` is 1. -/
abbrev Bit := Bool

/-- R70: a command word, `cmd[79:0]`. -/
abbrev CmdWord := BitVec 80

/-- R74: a response word, `rsp[71:0]`. -/
abbrev RspWord := BitVec 72

/-- R6: the 8-bit fields (`OPC_W`, `ARG_W`). -/
abbrev Byte := BitVec 8

/-- R6, R21 to R25: the 64-bit operand field and the 64-bit registers. -/
abbrev Word64 := BitVec 64

/-- `rep(bit, count)` (R8), kept symbolically: R244 asks that a model does not build a long unary
run as a list. -/
structure Run where
  bit : Bit
  count : Nat
  deriving DecidableEq, Repr

end Sys2Proof
end

