-- ==== Sys2Proof/Machine/Bits.lean ====
section
/-! DEFINITION. Bit sequences: the conversions of rule R10, most-significant bit first, and sequences held
as runs of equal bits (R244). -/

namespace Sys2Proof.Machine

/-! ## R10: integers and bit sequences -/

/-- R10: `bits_N(v)`, "the sequence of length `N` whose element `i` is `(v >> (N-1-i)) mod 2`". -/
def bitsN : Nat → Nat → List Bit
  | 0, _ => []
  | n + 1, v => v.testBit n :: bitsN n v

/-- R10: `val(s)`, the first bit most significant. -/
def val : List Bit → Nat
  | [] => 0
  | b :: s => b.toNat * 2 ^ s.length + val s

/-- R10: `sig(v)`, the number of significant bits. -/
def sig (v : Nat) : Nat := if v = 0 then 0 else v.log2 + 1

/-- The number of one-bits a sequence begins with. -/
def leadingOnes : List Bit → Nat
  | true :: s => leadingOnes s + 1
  | false :: _ => 0
  | [] => 0

/-! ## Sequences as runs -/

/-- The bit sequence a list of runs stands for. -/
def runsBits : List Run → List Bit
  | [] => []
  | r :: rs => List.replicate r.count r.bit ++ runsBits rs

/-- One run added after a sequence: an empty run adds nothing, and a run of the last bit lengthens the last
run, so that equal sequences stay equal lists of runs. -/
def appendRun : List Run → Run → List Run
  | [], r => if r.count = 0 then [] else [r]
  | [x], r =>
    if r.count = 0 then [x]
    else if x.bit = r.bit then [⟨x.bit, x.count + r.count⟩]
    else [x, r]
  | x :: y :: rs, r => x :: appendRun (y :: rs) r

/-- `rs ++ e` on runs. -/
def appendRuns (rs e : List Run) : List Run := e.foldl appendRun rs

/-- A bit sequence as one-bit runs. -/
def runsOfBits (s : List Bit) : List Run := s.map fun b => ⟨b, 1⟩

/-- The form `appendRun` keeps: no run is empty and neighbours differ. -/
def canonical : List Run → Bool
  | [] => true
  | [x] => decide (0 < x.count)
  | x :: y :: rs => decide (0 < x.count) && x.bit != y.bit && canonical (y :: rs)

end Sys2Proof.Machine
end

