-- ==== Sys2Proof/Config.lean ====
section
/-! DEFINITION. What an implementation fixes: the parameter `W_MAX` (rule R5) and the constants that
are the same in every implementation (rule R6). -/

namespace Sys2Proof

/-- R5: the one implementation parameter, with the range the rule gives it. -/
structure Params where
  /-- `W_MAX`, the largest CRC width the CRC unit supports. -/
  wMax : Nat
  atLeast : 16 ≤ wMax
  atMost : wMax ≤ 64
  deriving DecidableEq, Repr

/-- R5: "The default value is `W_MAX = 64`". -/
def Params.default : Params := ⟨64, by decide, by decide⟩

/-- R6: `VLI_MAX_SIG`, the largest number of significant bits the variable-length scheme represents. -/
def vliMaxSig : Nat := 36

/-- R6: `PUSH_MAX`, the largest number of bits one CRC push command carries. -/
def pushMax : Nat := 64

end Sys2Proof
end

