-- ==== Sys2Proof/Syntax.lean ====
section
/-! DEFINITION. The commands: one constructor of `Instr` per row of the opcode table (rule R76), with
the operands R72 gives it, and the names the decoder's tables are indexed by. -/

namespace Sys2Proof

/-- R28: the six defined control registers. -/
inductive CReg where
  | status
  | crcWidth
  | crcPoly
  | crcReg
  | crcResult
  | caps
  deriving DecidableEq, Repr

/-- R76: the eleven commands. `arg` and `opd` stand as the fields stand in the word: "Nothing is
sign-extended, scaled, shifted or split across fields" (R72). -/
inductive Instr where
  /-- R190 -/
  | nop
  /-- R191: `arg` is the register index. -/
  | rdreg (reg : CReg)
  /-- R192 -/
  | sreset
  /-- R110: `arg` is the width, `opd` the polynomial. -/
  | crcCfg (width : Byte) (poly : Word64)
  /-- R111 -/
  | crcStart
  /-- R112: `arg` is the bit count, `opd` holds the bits. -/
  | crcPush (n : Byte) (bits : Word64)
  /-- R113: operands as `crcPush`. -/
  | crcPushf (n : Byte) (bits : Word64)
  /-- R115 -/
  | crcFinal
  /-- R116 -/
  | crcAppend
  /-- R147: `opd` is the value. -/
  | vliEnc (value : Word64)
  /-- R174: `arg` is the Rice parameter, `opd` the value. -/
  | riceEnc (k : Byte) (value : Word64)
  deriving DecidableEq, Repr

/-- R76: the opcodes, without operands. -/
inductive Opcode where
  | nop
  | rdreg
  | sreset
  | crcCfg
  | crcStart
  | crcPush
  | crcPushf
  | crcFinal
  | crcAppend
  | vliEnc
  | riceEnc
  deriving DecidableEq, Repr

/-- R71: which of the fields `arg` and `opd` an opcode uses. -/
inductive Shape where
  | c0
  | ca
  | co
  | cao
  deriving DecidableEq, Repr

end Sys2Proof
end

