-- ==== Sys2Proof/WellFormed.lean ====
section
/-! DEFINITION. The static operand ranges of rule R77 step (3) that the types of `Instr` leave open.
`RDREG`'s range is in the type `CReg`; `CRC_CFG` and `RICE_ENC` "accept every `arg` at this stage". -/

namespace Sys2Proof

/-- R77 step (3): "`CRC_PUSH` and `CRC_PUSHF` need `arg <= 64`". -/
def Instr.wf : Instr → Bool
  | .nop => true
  | .rdreg _ => true
  | .sreset => true
  | .crcCfg _ _ => true
  | .crcStart => true
  | .crcPush n _ => decide (n.toNat ≤ pushMax)
  | .crcPushf n _ => decide (n.toNat ≤ pushMax)
  | .crcFinal => true
  | .crcAppend => true
  | .vliEnc _ => true
  | .riceEnc _ _ => true

end Sys2Proof
end

