-- ==== Sys2Proof/Decode.lean ====
section
/-! DEFINITION. Decoding, total on all `2^80` command words and rejecting by name (rules R70, R71, R76 to
R79), and the encoder written from the same tables. -/

namespace Sys2Proof

/-! ## The fields of a command word (R70) -/

/-- `opc = cmd[79:72]`. -/
def cmdOpc (w : CmdWord) : Byte := w.extractLsb' 72 8

/-- `arg = cmd[71:64]`. -/
def cmdArg (w : CmdWord) : Byte := w.extractLsb' 64 8

/-- `opd = cmd[63:0]`. -/
def cmdOpd (w : CmdWord) : Word64 := w.extractLsb' 0 64

/-- The word with the given fields. -/
def mkWord (opc arg : Byte) (opd : Word64) : CmdWord := opc ++ arg ++ opd

/-! ## The tables (R71, R76, R77, R28) -/

/-- R76, column `opc`. -/
def Opcode.code : Opcode → Byte
  | .nop => 0x00
  | .rdreg => 0x01
  | .sreset => 0x02
  | .crcCfg => 0x10
  | .crcStart => 0x11
  | .crcPush => 0x12
  | .crcPushf => 0x13
  | .crcFinal => 0x14
  | .crcAppend => 0x15
  | .vliEnc => 0x20
  | .riceEnc => 0x30

/-- The rows of R76, in its order. -/
def Opcode.all : List Opcode :=
  [.nop, .rdreg, .sreset, .crcCfg, .crcStart, .crcPush, .crcPushf, .crcFinal, .crcAppend, .vliEnc,
    .riceEnc]

/-- R77 step (1): the row of an `opc` value, if it has one. -/
def Opcode.ofCode? (opc : Byte) : Option Opcode := Opcode.all.find? fun op => op.code == opc

/-- R76, column `shape`. -/
def Opcode.shape : Opcode → Shape
  | .nop => .c0
  | .rdreg => .ca
  | .sreset => .c0
  | .crcCfg => .cao
  | .crcStart => .c0
  | .crcPush => .cao
  | .crcPushf => .cao
  | .crcFinal => .c0
  | .crcAppend => .c0
  | .vliEnc => .co
  | .riceEnc => .cao

/-- R71: "`arg` is used". -/
def Shape.usesArg : Shape → Bool
  | .c0 => false
  | .ca => true
  | .co => false
  | .cao => true

/-- R71: "`opd` is used". -/
def Shape.usesOpd : Shape → Bool
  | .c0 => false
  | .ca => false
  | .co => true
  | .cao => true

/-- R77 step (3), the column `arg_max` of the opcode table; 255 where every `arg` is accepted. -/
def Opcode.argMax : Opcode → Nat
  | .rdreg => 5
  | .crcPush => 64
  | .crcPushf => 64
  | .nop => 255
  | .sreset => 255
  | .crcCfg => 255
  | .crcStart => 255
  | .crcFinal => 255
  | .crcAppend => 255
  | .vliEnc => 255
  | .riceEnc => 255

/-- R28: the index of a control register. -/
def CReg.index : CReg → Byte
  | .status => 0
  | .crcWidth => 1
  | .crcPoly => 2
  | .crcReg => 3
  | .crcResult => 4
  | .caps => 5

/-- R28: "Indices 6 to 255 are undefined". -/
def CReg.ofIndex? (i : Byte) : Option CReg :=
  [CReg.status, .crcWidth, .crcPoly, .crcReg, .crcResult, .caps].find? fun r => r.index == i

/-! ## Decoding -/

/-- Why a word is not a legal command; each makes the command fail with `ERR_ILLEGAL` (R77, R201). -/
inductive DecodeError where
  /-- R201(a): "`opc` is not one of the eleven defined opcodes". -/
  | undefinedOpcode
  /-- R201(b): a non-zero `arg` in a shape that does not use it. -/
  | unusedArgNonzero
  /-- R201(b): a non-zero `opd` in a shape that does not use it. -/
  | unusedOpdNonzero
  /-- R201(c), R201(d): `arg` above the opcode's static range. -/
  | argOutOfRange
  deriving DecidableEq, Repr

/-- R72, column `arg` and `opd` of R76: the command of an opcode with its operands. -/
def Opcode.withOperands (op : Opcode) (arg : Byte) (opd : Word64) : Option Instr :=
  match op with
  | .nop => some .nop
  | .rdreg => (CReg.ofIndex? arg).map .rdreg
  | .sreset => some .sreset
  | .crcCfg => some (.crcCfg arg opd)
  | .crcStart => some .crcStart
  | .crcPush => some (.crcPush arg opd)
  | .crcPushf => some (.crcPushf arg opd)
  | .crcFinal => some .crcFinal
  | .crcAppend => some .crcAppend
  | .vliEnc => some (.vliEnc opd)
  | .riceEnc => some (.riceEnc arg opd)

/-- R77: the decoder, its three steps in the rule's order. -/
def decode (w : CmdWord) : Except DecodeError Instr :=
  match Opcode.ofCode? (cmdOpc w) with
  | none => .error .undefinedOpcode
  | some op =>
    if op.shape.usesArg = false ∧ cmdArg w ≠ 0 then .error .unusedArgNonzero
    else if op.shape.usesOpd = false ∧ cmdOpd w ≠ 0 then .error .unusedOpdNonzero
    else if op.argMax < (cmdArg w).toNat then .error .argOutOfRange
    else
      match op.withOperands (cmdArg w) (cmdOpd w) with
      | some i => .ok i
      | none => .error .argOutOfRange

/-! ## Encoding -/

/-- The row of R76 an instruction belongs to. -/
def Instr.opcode : Instr → Opcode
  | .nop => .nop
  | .rdreg _ => .rdreg
  | .sreset => .sreset
  | .crcCfg _ _ => .crcCfg
  | .crcStart => .crcStart
  | .crcPush _ _ => .crcPush
  | .crcPushf _ _ => .crcPushf
  | .crcFinal => .crcFinal
  | .crcAppend => .crcAppend
  | .vliEnc _ => .vliEnc
  | .riceEnc _ _ => .riceEnc

/-- The `arg` field of an instruction's word; 0 where its shape does not use it (R71). -/
def Instr.arg : Instr → Byte
  | .rdreg r => r.index
  | .crcCfg width _ => width
  | .crcPush n _ => n
  | .crcPushf n _ => n
  | .riceEnc k _ => k
  | .nop => 0
  | .sreset => 0
  | .crcStart => 0
  | .crcFinal => 0
  | .crcAppend => 0
  | .vliEnc _ => 0

/-- The `opd` field of an instruction's word; 0 where its shape does not use it (R71). -/
def Instr.opd : Instr → Word64
  | .crcCfg _ poly => poly
  | .crcPush _ bits => bits
  | .crcPushf _ bits => bits
  | .vliEnc value => value
  | .riceEnc _ value => value
  | .nop => 0
  | .rdreg _ => 0
  | .sreset => 0
  | .crcStart => 0
  | .crcFinal => 0
  | .crcAppend => 0

/-- The command word of an instruction (R70, R71, R76). -/
def encode (i : Instr) : CmdWord := mkWord i.opcode.code i.arg i.opd

/-- The number the opcode table gives a row's bits, as a command word. The word is one value of 80
numbered bits (R53, R70), bit 0 of the number being bit 0 of `opd`; there is no longer command. -/
def tableWord (nbits w : Nat) : CmdWord := BitVec.ofNat 80 (w % 2 ^ nbits)

/-- What `decode` reads from a table word (DEDUCED, log entry 9). -/
def decodeTableWord (nbits w : Nat) : Option Instr :=
  if w % 2 ^ nbits < 2 ^ 80 then (decode (tableWord nbits w)).toOption else none

end Sys2Proof
end

