-- ==== Sys2Proof/Machine/State.lean ====
section
/-! DEFINITION. The state of the block (rules R20 to R32, R39), the response codes (R200), and the reasons
a step could stop. -/

namespace Sys2Proof.Machine

/-- R200: the three error codes. -/
inductive Err where
  /-- `ERR_ILLEGAL`: "the command word is not a legal command". -/
  | illegal
  /-- `ERR_CONFIG`: the CRC width is 0 or unsupported, or a CRC data command came before any
  configuration. -/
  | config
  /-- `ERR_RANGE`: "a value exceeds what the variable-length scheme or a fixed-width field can represent". -/
  | range
  deriving DecidableEq, Repr

/-- R200: "The response code field takes four values; the block never produces any other." -/
inductive Code where
  | ok
  | err (e : Err)
  deriving DecidableEq, Repr

/-- R74: the two fields of a response word. -/
structure Response where
  code : Code
  value : Word64
  deriving DecidableEq, Repr

/-- Why the machine would stop with a fault. It has no constructor and nothing raises it: "No error stops
the block ... there is no fault state" (R209), "every one of the `2^80` command words has exactly one
outcome" (R77). Safe: no behaviour is lost (DEDUCED, log entry 10). -/
inductive Fault
  deriving DecidableEq, Repr

/-- Why an instruction would have no meaning. -/
inductive Refusal where
  /-- Raised by an arm of `exec` whose instruction has no meaning yet, and by nothing else; in this model no
  arm raises it. Safe: the run stops. -/
  | notModelled (mnemonic : String)
  deriving DecidableEq, Repr

/-- The whole state. The five registers of R20 (`STATUS` as its three stored flags, R26, R27), the three
streams of R30 to R32, and the implementation parameter (DESIGN CHOICE, log entries 2, 3, 4 and 5). -/
structure State where
  /-- R5: `W_MAX`; no command writes it. -/
  params : Params
  /-- R23: `CRC_WIDTH`, "64 bits of which bits 7:0 hold the value and bits 63:8 read as zero". -/
  crcWidth : Byte
  /-- R22: `CRC_POLY`. -/
  crcPoly : Word64
  /-- R21: `CRC_REG`. -/
  crcReg : Word64
  /-- R24: `CRC_RESULT`. -/
  crcResult : Word64
  /-- R26: `STATUS.E_ILLEGAL`. -/
  eIllegal : Bool
  /-- R26: `STATUS.E_CONFIG`. -/
  eConfig : Bool
  /-- R26: `STATUS.E_RANGE`. -/
  eRange : Bool
  /-- R30: the command words sent and not yet accepted, the next one first. -/
  cmd : List CmdWord
  /-- R31: what OUT has carried since reset, as runs of equal bits, the first bit first. -/
  out : List Run
  /-- R32: the responses given since reset, the first one first. -/
  rsp : List Response
  deriving DecidableEq, Repr

/-- The outcome of a command or a step. -/
abbrev StepOutcome := Host.Outcome State Fault Refusal

/-- R39, R230, R231: the state after hardware reset of an implementation with parameter `p`. -/
def State.resetWith (p : Params) : State where
  params := p
  crcWidth := 0
  crcPoly := 0
  crcReg := 0
  crcResult := 0
  eIllegal := false
  eConfig := false
  eRange := false
  cmd := []
  out := []
  rsp := []

/-- The state after hardware reset with the default `W_MAX = 64` (R5; DESIGN CHOICE, log entry 2). -/
def State.reset : State := State.resetWith Params.default

end Sys2Proof.Machine
end

