-- ==== Sys2Proof/Machine/Flags.lean ====
section
/-! DEFINITION. `STATUS`: the sticky error flags (rule R26), the derived `CFGD` (R27) and the register as a
word (R25). -/

namespace Sys2Proof.Machine

/-- R26: the sticky flag of an error code is set; it "may already be 1" (R203). -/
def setSticky (e : Err) (s : State) : State :=
  match e with
  | .illegal => { s with eIllegal := true }
  | .config => { s with eConfig := true }
  | .range => { s with eRange := true }

/-- R26: the sticky flag of an error code. -/
def sticky (e : Err) (s : State) : Bool :=
  match e with
  | .illegal => s.eIllegal
  | .config => s.eConfig
  | .range => s.eRange

/-- R27: `CFGD` "reads 1 when `reg.CRC_WIDTH != 0` and 0 otherwise". -/
def cfgd (s : State) : Bool := s.crcWidth != 0

/-- R25: `STATUS` as it reads: bit 8 `CFGD`, bit 2 `E_RANGE`, bit 1 `E_CONFIG`, bit 0 `E_ILLEGAL`, reserved
bits zero. -/
def statusWord (s : State) : Word64 :=
  (0 : BitVec 55) ++ BitVec.ofBool (cfgd s) ++ (0 : BitVec 5) ++ BitVec.ofBool s.eRange ++
    BitVec.ofBool s.eConfig ++ BitVec.ofBool s.eIllegal

end Sys2Proof.Machine
end

