-- ==== Sys2Proof/Machine/Ops.lean ====
section
/-! DEFINITION. The operations every command is made of: `emit`, `respond` and `fail` (rule R11), the taking
of a command word from CMD (R30), and what the host can do to the block (R251). -/

namespace Sys2Proof.Machine

/-! ## Responses (R74, R200) -/

/-- R200, column `code`. -/
def Code.bits : Code → Byte
  | .ok => 0x00
  | .err .illegal => 0x01
  | .err .config => 0x02
  | .err .range => 0x03

/-- R74: the 72-bit response word. -/
def Response.word (r : Response) : RspWord := r.code.bits ++ r.value

/-! ## Emitting, responding, failing -/

/-- R11, R31: `emit(s)` appends to OUT. -/
def emit (e : List Run) (s : State) : State := { s with out := appendRuns s.out e }

/-- R11: `respond(code, value)` produces the command's single response and ends the command. -/
def respond (c : Code) (v : Word64) (s : State) : StepOutcome :=
  .next { s with rsp := s.rsp ++ [⟨c, v⟩] }

/-- R203: `fail(CODE)`, the whole of taking an error (R211: "The whole \"entry\" is rule R203"): the sticky
flag, the response `CODE` with value 0, and nothing else. There is no return from it (R212). -/
def fail (e : Err) (s : State) : StepOutcome := respond (.err e) 0 (setSticky e s)

/-- R203: "Every check that can fail comes before every register write and every `emit`": the command fails
with the first error its checks find, or does all of its rule. -/
def checked (err : Option Err) (s : State) (done : StepOutcome) : StepOutcome :=
  match err with
  | some e => fail e s
  | none => done

/-! ## Taking a command (R30, R77) -/

/-- R30: the next command word, and the state in which it has been accepted. -/
def fetch (s : State) : Option (CmdWord × State) :=
  match s.cmd with
  | [] => none
  | w :: rest => some (w, { s with cmd := rest })

/-- R220: "Between commands the block is idle and holds its registers" (DEDUCED, log entry 1). -/
def idle (s : State) : StepOutcome := .next s

/-- R77, R78: what a word that is no legal command does. -/
def illegalCommand (s : State) : StepOutcome := fail .illegal s

/-- R33: the index that plays the role of a program counter: commands completed since reset. -/
def commandIndex (s : State) : Nat := s.rsp.length

/-! ## The host (R251) -/

/-- R251: the host sends one whole command word, "any of the `2^80` values". -/
def hostSend (w : CmdWord) (s : State) : State := { s with cmd := s.cmd ++ [w] }

/-- R230, R231: hardware reset between commands: the registers at their reset values, a new run with empty
histories, the implementation's parameter kept (log entry 6). -/
def hardwareReset (s : State) : State := State.resetWith s.params

end Sys2Proof.Machine
end

