-- ==== Sys2Proof/Machine/Operands.lean ====
section
/-! DEFINITION. What the operands of a command stand for: the control registers `RDREG` reads (rules R28,
R29, R191), and the checks on `arg` and `opd` (R109, R110, R112, R147). -/

namespace Sys2Proof.Machine

/-- R29: `CAPS`, bits 7:0 `W_MAX`, bits 15:8 `VLI_MAX_SIG`, bits 23:16 `PUSH_MAX`, bits 63:24 zero. -/
def capsWord (p : Params) : Word64 :=
  (0 : BitVec 40) ++ BitVec.ofNat 8 pushMax ++ BitVec.ofNat 8 vliMaxSig ++ BitVec.ofNat 8 p.wMax

/-- R28: `creg[i]`, "the full 64-bit register with reserved bits as zero" (R191). -/
def readReg (r : CReg) (s : State) : Word64 :=
  match r with
  | .status => statusWord s
  | .crcWidth => s.crcWidth.setWidth 64
  | .crcPoly => s.crcPoly
  | .crcReg => s.crcReg
  | .crcResult => s.crcResult
  | .caps => capsWord s.params

/-- R110: the checks of `CRC_CFG`, the width first. The powers are exact (R14(a)). -/
def cfgError (width : Byte) (poly : Word64) (s : State) : Option Err :=
  if width.toNat = 0 ∨ s.params.wMax < width.toNat then some .config
  else if 2 ^ width.toNat ≤ poly.toNat then some .range
  else none

/-- R109: the precondition of the CRC data commands. -/
def unconfiguredError (s : State) : Option Err := if s.crcWidth = 0 then some .config else none

/-- R201(d), R109, R112: the checks of `CRC_PUSH` and `CRC_PUSHF` in the order of R206. The first never
fires on a decoded word (R77 step (3)); it gives an ill-formed term the outcome R201(d) gives its word
(DEDUCED, log entry 8). -/
def pushError (n : Byte) (bits : Word64) (s : State) : Option Err :=
  if pushMax < n.toNat then some .illegal
  else if s.crcWidth = 0 then some .config
  else if 2 ^ n.toNat ≤ bits.toNat then some .range
  else none

/-- R112: `s = bits_n(cmd.opd)`, "bit `n-1` first". -/
def pushBits (n : Byte) (bits : Word64) : List Bit := bitsN n.toNat bits.toNat

/-- R147, R148: the check of `VLI_ENC`. -/
def vliError (value : Word64) : Option Err := if 2 ^ vliMaxSig ≤ value.toNat then some .range else none

end Sys2Proof.Machine
end

