-- ==== Sys2Proof/Machine/Crc.lean ====
section
/-! DEFINITION. The CRC unit (spec/40_crc.md): the reference functions of its part 1, on exact natural
numbers (rule R14), and the six commands of its part 2. -/

namespace Sys2Proof.Machine

/-! ## Reference functions -/

/-- R101: one division step. -/
def crcShift (poly w reg : Nat) (b : Bit) : Nat :=
  if 2 ^ (w - 1) ≤ reg then (((reg - 2 ^ (w - 1)) <<< 1) ||| b.toNat) ^^^ poly
  else ((reg <<< 1) ||| b.toNat) ^^^ 0

/-- R102: `crc_shift` for each bit, first bit first. -/
def crcShiftin (poly w : Nat) : Nat → List Bit → Nat
  | reg, [] => reg
  | reg, b :: s => crcShiftin poly w (crcShift poly w reg b) s

/-- R103: the checksum, by the four steps of D0 §4.1: append `w` zeros, seed with the first `w` padded bits,
shift in the `len(s)` padded bits that remain. -/
def crcCompute (poly w : Nat) (s : List Bit) : Nat :=
  let p := s ++ List.replicate w false
  crcShiftin poly w (val (p.take w)) (p.drop w)

/-- R106: the checksum's `w` bits after the sequence. -/
def crcAppend (s : List Bit) (c w : Nat) : List Bit := s ++ bitsN w c

/-! ## Shared operations -/

/-- R112: the bits of a push enter `CRC_REG`. -/
def absorb (b : List Bit) (s : State) : State :=
  { s with
    crcReg := BitVec.ofNat 64 (crcShiftin s.crcPoly.toNat s.crcWidth.toNat s.crcReg.toNat b) }

/-- R115: the flush of `w` zeros, "computed on a copy". -/
def flush (s : State) : Word64 :=
  BitVec.ofNat 64 (crcShiftin s.crcPoly.toNat s.crcWidth.toNat s.crcReg.toNat
    (List.replicate s.crcWidth.toNat false))

/-- R116: the checksum's bits as `CRC_APPEND` emits them, "leading zeros included". -/
def checksumRuns (c : Word64) (s : State) : List Run := runsOfBits (bitsN s.crcWidth.toNat c.toNat)

/-! ## Commands -/

/-- R110. -/
def execCrcCfg (width : Byte) (poly : Word64) (s : State) : StepOutcome :=
  checked (cfgError width poly s) s
    (respond .ok 0 { s with crcWidth := width, crcPoly := poly, crcReg := 0, crcResult := 0 })

/-- R111: it "succeeds even when the unit is unconfigured". -/
def execCrcStart (s : State) : StepOutcome := respond .ok 0 { s with crcReg := 0 }

/-- R112. -/
def execCrcPush (n : Byte) (bits : Word64) (s : State) : StepOutcome :=
  checked (pushError n bits s) s (respond .ok 0 (absorb (pushBits n bits) s))

/-- R113: as `CRC_PUSH`, and the bits go to OUT. -/
def execCrcPushf (n : Byte) (bits : Word64) (s : State) : StepOutcome :=
  checked (pushError n bits s) s
    (respond .ok 0 (emit (runsOfBits (pushBits n bits)) (absorb (pushBits n bits) s)))

/-- R115: "`CRC_REG` is *not* changed". -/
def execCrcFinal (s : State) : StepOutcome :=
  checked (unconfiguredError s) s (respond .ok (flush s) { s with crcResult := flush s })

/-- R116: "the emitted checksum bits are *not* absorbed". -/
def execCrcAppend (s : State) : StepOutcome :=
  checked (unconfiguredError s) s
    (respond .ok (flush s) (emit (checksumRuns (flush s) s) { s with crcResult := flush s }))

end Sys2Proof.Machine
end

