-- ==== Sys2Proof/Machine/Vli.lean ====
section
/-! DEFINITION. The VLI unit (spec/41_vli.md): the code of its part 1, the command of part 2 and the
reference decoder of part 3, which is not a hardware operation. -/

namespace Sys2Proof.Machine

/-! ## The code -/

/-- R141, column `B(n)`: the number of `x` positions of row `n`; 0 where the table has no row. -/
def vliBudget : Nat → Nat
  | 1 => 7
  | 2 => 11
  | 3 => 16
  | 4 => 21
  | 5 => 26
  | 6 => 31
  | 7 => 36
  | _ => 0

/-- R142: "the smallest row whose bit budget accommodates `value`"; none when no row does. -/
def vliRow (v : Nat) : Option Nat := [1, 2, 3, 4, 5, 6, 7].find? fun n => sig v ≤ vliBudget n

/-- R143: `m` continuation bytes, each the prefix `10` and the next six `x` bits. -/
def vliContinuations : Nat → List Bit → List Bit
  | 0, _ => []
  | m + 1, x => [true, false] ++ x.take 6 ++ vliContinuations m (x.drop 6)

/-- R143 for row `n`: the leading byte, `7 - n` value bits in it when `n >= 2`, then the continuation bytes. -/
def vliEncodeRow (n v : Nat) : List Bit :=
  let x := bitsN (vliBudget n) v
  if n = 1 then false :: x
  else
    List.replicate n true ++ [false] ++ x.take (7 - n) ++ vliContinuations (n - 1) (x.drop (7 - n))

/-- R143: `vli_encode(v)`. The rule requires `sig(v) <= 36`; above it there is no row and no bit
(DESIGN CHOICE, log entry 13: `VLI_ENC` refuses such a value before it encodes). -/
def vliEncode (v : Nat) : List Bit :=
  match vliRow v with
  | some n => vliEncodeRow n v
  | none => []

/-! ## Command -/

/-- R147: "Reads no register, writes no register". -/
def execVliEnc (value : Word64) (s : State) : StepOutcome :=
  checked (vliError value) s (respond .ok 0 (emit (runsOfBits (vliEncode value.toNat)) s))

/-! ## Reference decoder -/

/-- R149, R175: why a reference decoder rejects its input. -/
inductive Invalid where
  | truncated
  | badLead
  | badContinuation
  | overlong
  deriving DecidableEq, Repr

/-- R149, R175: the result of a reference decoder, `ok(v, m)` with the number of bits consumed. -/
inductive Decoded where
  | ok (v m : Nat)
  | invalid (reason : Invalid)
  deriving DecidableEq, Repr

/-- R149: the `x` bits of `m` continuation bytes, in order; none if one does not begin `10`. -/
def vliGather : Nat → List Bit → Option (List Bit)
  | 0, _ => some []
  | m + 1, t =>
    if t.take 2 = [true, false] then
      (vliGather m (t.drop 8)).map fun x => (t.drop 2).take 6 ++ x
    else none

/-- R149: `vli_decode(s)`. -/
def vliDecode (s : List Bit) : Decoded :=
  if s.length < 8 then .invalid .truncated
  else
    let n := leadingOnes (s.take 8)
    if n = 0 then .ok (val ((s.drop 1).take 7)) 8
    else if n = 1 ∨ n = 8 then .invalid .badLead
    else if s.length < 8 * n then .invalid .truncated
    else
      match vliGather (n - 1) (s.drop 8) with
      | none => .invalid .badContinuation
      | some x =>
        let v := val ((s.drop (n + 1)).take (7 - n) ++ x)
        if sig v ≤ vliBudget (n - 1) then .invalid .overlong else .ok v (8 * n)

end Sys2Proof.Machine
end

