-- ==== Sys2Proof/Machine/Rice.lean ====
section
/-! DEFINITION. The RICE unit (spec/42_rice.md): the code of its part 1, the command of part 2 and the
reference decoder of part 3, which is not a hardware operation. -/

namespace Sys2Proof.Machine

/-- R171: `rice_encode(v, k)`: the quotient in ones, the stop bit, the remainder in `k` bits. -/
def riceEncode (v k : Nat) : List Bit :=
  List.replicate (v >>> k) true ++ [false] ++ bitsN k (v % 2 ^ k)

/-- The same sequence with the unary part as one run (R244). -/
def riceRuns (v k : Nat) : List Run :=
  ⟨true, v >>> k⟩ :: ⟨false, 1⟩ :: runsOfBits (bitsN k (v % 2 ^ k))

/-- R174: "every `RICE_ENC` word is legal and succeeds". -/
def execRiceEnc (k : Byte) (value : Word64) (s : State) : StepOutcome :=
  respond .ok 0 (emit (riceRuns value.toNat k.toNat) s)

/-- R175: `rice_decode(s, k)`. -/
def riceDecode (s : List Bit) (k : Nat) : Decoded :=
  let q := leadingOnes s
  if q = s.length then .invalid .truncated
  else if s.length < q + 1 + k then .invalid .truncated
  else .ok (q * 2 ^ k + val ((s.drop (q + 1)).take k)) (q + 1 + k)

end Sys2Proof.Machine
end

