-- ==== Sys2Proof/Machine/System.lean ====
section
/-! DEFINITION. The system commands `NOP`, `RDREG`, `SRESET` (spec/43_system.md). -/

namespace Sys2Proof.Machine

/-- R190. -/
def execNop (s : State) : StepOutcome := respond .ok 0 s

/-- R191: "Reading changes nothing, not even the sticky flags". -/
def execRdreg (r : CReg) (s : State) : StepOutcome := respond .ok (readReg r s) s

/-- R192, R39: the registers at their reset values; the streams are untouched (R231). -/
def clearRegisters (s : State) : State :=
  { s with
    crcWidth := 0, crcPoly := 0, crcReg := 0, crcResult := 0,
    eIllegal := false, eConfig := false, eRange := false }

/-- R192. -/
def execSreset (s : State) : StepOutcome := respond .ok 0 (clearRegisters s)

end Sys2Proof.Machine
end

