-- ==== Sys2Proof/Machine/Dispatch.lean ====
section
/-! DEFINITION. One arm per constructor of `Instr`: the meaning each command has. -/

namespace Sys2Proof.Machine

/-- What a decoded command does (rule R12). -/
def exec (i : Instr) (s : State) : Host.Outcome State Fault Refusal :=
  match i with
  | .nop => Sys2Proof.Machine.execNop s
  | .rdreg reg => Sys2Proof.Machine.execRdreg reg s
  | .sreset => Sys2Proof.Machine.execSreset s
  | .crcCfg width poly => Sys2Proof.Machine.execCrcCfg width poly s
  | .crcStart => Sys2Proof.Machine.execCrcStart s
  | .crcPush n bits => Sys2Proof.Machine.execCrcPush n bits s
  | .crcPushf n bits => Sys2Proof.Machine.execCrcPushf n bits s
  | .crcFinal => Sys2Proof.Machine.execCrcFinal s
  | .crcAppend => Sys2Proof.Machine.execCrcAppend s
  | .vliEnc value => Sys2Proof.Machine.execVliEnc value s
  | .riceEnc k value => Sys2Proof.Machine.execRiceEnc k value s

end Sys2Proof.Machine
end

