-- ==== Sys2Proof/Machine/Step.lean ====
section
/-! DEFINITION. One step: the next command of CMD is accepted, decoded and executed (rules R12, R30, R77). -/

namespace Sys2Proof.Machine

/-- R30, R77: one whole command; nothing happens while no command waits (R210, R220). -/
def step (s : State) : Host.Outcome State Fault Refusal :=
  match fetch s with
  | none => idle s
  | some (w, t) =>
    match decode w with
    | .ok i => exec i t
    | .error _ => illegalCommand t

/-- The state in which the host has presented the given word as the next command (log entry 5). -/
def State.withFetchWord (s : State) (nbits w : Nat) : State :=
  { s with cmd := tableWord nbits w :: s.cmd }

end Sys2Proof.Machine
end

