-- ==== Sys2Proof/Machine/Assembler.lean ====
section
/-! DEFINITION. The textual form of a command (rules R85 to R88): one line of text to the command word it
stands for. Details the rules leave open are DESIGN CHOICE, log entry 12. -/

namespace Sys2Proof.Machine

/-- Why a line is not assembled. -/
inductive AsmError where
  /-- The mnemonic is not one of R85 or R88. -/
  | unknownMnemonic
  /-- Too few or too many operands for the mnemonic. -/
  | operandCount
  /-- An operand that is no number of R86 and, for `rdreg`, no register name of R87. -/
  | badOperand
  /-- R86: "An assembler refuses an operand that does not fit its field". -/
  | doesNotFit
  deriving DecidableEq, Repr

/-! ## Text -/

def isBlank (c : Char) : Bool := c = ' ' || c = '\t' || c = '\n' || c = '\r'

/-- White space removed at both ends. -/
def trim (t : List Char) : List Char := ((t.dropWhile isBlank).reverse.dropWhile isBlank).reverse

/-- The pieces of a text between the given character's occurrences. -/
def splitAt (c : Char) : List Char → List (List Char)
  | [] => [[]]
  | x :: t =>
    match splitAt c t with
    | [] => [[x]]
    | piece :: rest => if x = c then [] :: piece :: rest else (x :: piece) :: rest

/-- R85: "`#` starts a comment". -/
def stripComment (t : List Char) : List Char := trim (t.takeWhile fun c => c != '#')

/-! ## Numbers (R86) -/

/-- The value of a digit in the given base. -/
def digit? (base : Nat) (c : Char) : Option Nat :=
  let n := c.toNat
  let d :=
    if 48 ≤ n ∧ n ≤ 57 then some (n - 48)
    else if 97 ≤ n ∧ n ≤ 102 then some (n - 87)
    else if 65 ≤ n ∧ n ≤ 70 then some (n - 55)
    else none
  d.bind fun k => if k < base then some k else none

/-- Digits with single underscores between them: the accumulated value and whether a digit must follow. -/
def digits? (base : Nat) : Nat → Bool → List Char → Option Nat
  | acc, mustFollow, [] => if mustFollow then none else some acc
  | acc, mustFollow, c :: t =>
    if c = '_' then if mustFollow then none else digits? base acc true t
    else (digit? base c).bind fun d => digits? base (acc * base + d) false t

/-- R86: decimal, hexadecimal with `0x`, binary with `0b`. -/
def number? : List Char → Option Nat
  | '0' :: 'x' :: t => digits? 16 0 true t
  | '0' :: 'b' :: t => digits? 2 0 true t
  | t => digits? 10 0 true t

/-- R87: a register name or a bare number. -/
def regIndex? (t : List Char) : Option Nat :=
  if t = ['S', 'T', 'A', 'T', 'U', 'S'] then some 0
  else if t = ['C', 'R', 'C', '_', 'W', 'I', 'D', 'T', 'H'] then some 1
  else if t = ['C', 'R', 'C', '_', 'P', 'O', 'L', 'Y'] then some 2
  else if t = ['C', 'R', 'C', '_', 'R', 'E', 'G'] then some 3
  else if t = ['C', 'R', 'C', '_', 'R', 'E', 'S', 'U', 'L', 'T'] then some 4
  else if t = ['C', 'A', 'P', 'S'] then some 5
  else number? t

/-! ## Mnemonics (R85, R88) -/

/-- What a mnemonic expects after it: nothing, a register, or the `arg` and `opd` operands it takes, with
the value it fixes for the one it does not take. -/
inductive Form where
  | fixed (arg : Byte) (opd : Word64)
  | reg
  | argOpd
  | opd (arg : Byte)
  deriving DecidableEq, Repr

/-- R85 and R88: every mnemonic, its opcode and its operands. A pseudo-instruction is a row that fixes
operands; each expands "to exactly one command". -/
def mnemonics : List (String × Opcode × Form) :=
  [("nop", .nop, .fixed 0 0), ("rdreg", .rdreg, .reg), ("sreset", .sreset, .fixed 0 0),
    ("crc.cfg", .crcCfg, .argOpd), ("crc.start", .crcStart, .fixed 0 0),
    ("crc.push", .crcPush, .argOpd), ("crc.pushf", .crcPushf, .argOpd),
    ("crc.final", .crcFinal, .fixed 0 0), ("crc.append", .crcAppend, .fixed 0 0),
    ("vli.enc", .vliEnc, .opd 0), ("rice.enc", .riceEnc, .argOpd)] ++
  [("crc.bit", .crcPush, .opd 1), ("crc.bitf", .crcPushf, .opd 1), ("crc.byte", .crcPush, .opd 8),
    ("crc.bytef", .crcPushf, .opd 8), ("crc.cfg8", .crcCfg, .fixed 8 0x07),
    ("crc.cfg16", .crcCfg, .fixed 16 0x8005), ("unary.enc", .riceEnc, .opd 0)]

/-- R86: the operand fits the 8-bit `arg` field. -/
def fitArg (v : Nat) : Except AsmError Byte :=
  if v < 2 ^ 8 then .ok (BitVec.ofNat 8 v) else .error .doesNotFit

/-- R86: the operand fits the 64-bit `opd` field. -/
def fitOpd (v : Nat) : Except AsmError Word64 :=
  if v < 2 ^ 64 then .ok (BitVec.ofNat 64 v) else .error .doesNotFit

/-- A number operand. -/
def asNumber (t : List Char) : Except AsmError Nat :=
  match number? t with
  | some v => .ok v
  | none => .error .badOperand

/-- The command word of an opcode and its operand texts: "The `arg` operand, when the shape has one, comes
first; the `opd` operand second" (R85). -/
def assembleForm (op : Opcode) (form : Form) (operands : List (List Char)) : Except AsmError CmdWord :=
  match form, operands with
  | .fixed a d, [] => .ok (mkWord op.code a d)
  | .reg, [r] =>
    match regIndex? r with
    | some i => do .ok (mkWord op.code (← fitArg i) 0)
    | none => .error .badOperand
  | .argOpd, [a, d] => do
    let arg ← fitArg (← asNumber a)
    let opd ← fitOpd (← asNumber d)
    .ok (mkWord op.code arg opd)
  | .opd a, [d] => do
    let opd ← fitOpd (← asNumber d)
    .ok (mkWord op.code a opd)
  | _, _ => .error .operandCount

/-- R85: "one command per line"; a line with nothing before its comment stands for no command. The ranges the
block itself checks are not checked (R86), so a word that fails can be written. -/
def assembleLine (line : List Char) : Except AsmError (Option CmdWord) :=
  let t := stripComment line
  if t = [] then .ok none
  else
    let name := t.takeWhile fun c => !isBlank c
    let rest := trim (t.drop name.length)
    match mnemonics.find? fun row => row.1.toList == name with
    | none => .error .unknownMnemonic
    | some (_, op, form) =>
      (assembleForm op form (if rest = [] then [] else (splitAt ',' rest).map trim)).map some

/-- The lines of a program, in order. -/
def assemble : List (List Char) → Except AsmError (List CmdWord)
  | [] => .ok []
  | line :: lines => do
    let w ← assembleLine line
    let ws ← assemble lines
    .ok (w.toList ++ ws)

end Sys2Proof.Machine
end

