-- ==== Sys2Proof/Safety.lean ====
section
/-! DEFINITION. The terms claims are stated in: the invariants of the registers (rule R38) and of
OUT, a run and its
observable result (R250), and what counts as a run without an error (R26). -/

namespace Sys2Proof.Machine

/-- R38 (a) to (d): the invariants of the CRC registers. -/
abbrev State.Inv (s : State) : Prop :=
  s.crcWidth.toNat ≤ s.params.wMax ∧
  s.crcPoly.toNat < 2 ^ s.crcWidth.toNat ∧
  s.crcReg.toNat < 2 ^ s.crcWidth.toNat ∧
  s.crcResult.toNat < 2 ^ s.crcWidth.toNat

/-- OUT's runs are in the one form `appendRun` keeps (log entry 3). -/
abbrev State.OutCanonical (s : State) : Prop := canonical s.out = true

/-- R26: "A model's claims take \"all three flags are 0\" as the meaning of \"no error recorded\"." -/
abbrev State.NoError (s : State) : Prop :=
  s.eIllegal = false ∧ s.eConfig = false ∧ s.eRange = false

/-- What OUT has carried since reset (R31). -/
def State.outBits (s : State) : List Bit := runsBits s.out

/-- R250: "the list of responses, the bit sequence OUT carried, and the final register values" (in index
order, R28). -/
structure RunResult where
  responses : List RspWord
  out : List Bit
  registers : List Word64
  deriving DecidableEq, Repr

/-- R250: what a state shows of the run that led to it. -/
def State.result (s : State) : RunResult where
  responses := s.rsp.map Response.word
  out := s.outBits
  registers := [CReg.status, .crcWidth, .crcPoly, .crcReg, .crcResult, .caps].map fun r => readReg r s

/-- The commands of a list executed one after another from a state in which none waits (R30, R59). -/
def runWords (ws : List CmdWord) (s : State) : StepOutcome :=
  Sys2Proof.core.run ws.length { s with cmd := ws }

/-- R250: a run without an error: every response is `OK`. -/
def State.allOk (s : State) : Bool := s.rsp.all fun r => r.code = .ok

end Sys2Proof.Machine
end

