-- ==== Sys2Proof/Certificates/Slice0/Obligations.lean ====
section
/-! DEFINITION. The statements about the model. Each docstring names the rule of the spec a statement
formalises, or the sections it rests on. -/

namespace Sys2Proof.Claims

open Sys2Proof.Machine

/-- R203: the state after a failure with code `e`: the sticky flag of `e`, the response, nothing else. -/
def afterFailure (e : Err) (s : State) : State :=
  { s with
    eIllegal := s.eIllegal || decide (e = .illegal)
    eConfig := s.eConfig || decide (e = .config)
    eRange := s.eRange || decide (e = .range)
    rsp := s.rsp ++ [⟨.err e, 0⟩] }

/-- The state after a success with response value `v` whose register and stream effects are already in `s`. -/
def afterSuccess (v : Word64) (s : State) : State := { s with rsp := s.rsp ++ [⟨.ok, v⟩] }

/-- R201: the causes (a) to (d), on the three fields as numbers. -/
abbrev IllegalFields (opc arg opd : Nat) : Prop :=
  opc ∉ [0x00, 0x01, 0x02, 0x10, 0x11, 0x12, 0x13, 0x14, 0x15, 0x20, 0x30] ∨
  (arg ≠ 0 ∧ opc ∈ [0x00, 0x02, 0x11, 0x14, 0x15, 0x20]) ∨
  (opd ≠ 0 ∧ opc ∈ [0x00, 0x02, 0x11, 0x14, 0x15, 0x01]) ∨
  (5 < arg ∧ opc = 0x01) ∨
  (64 < arg ∧ opc ∈ [0x12, 0x13])

/-- R201 on a word, read as a number: `opc` is bits 79:72, `arg` bits 71:64, `opd` bits 63:0 (R70). -/
abbrev IllegalWord (w : CmdWord) : Prop :=
  IllegalFields (w.toNat / 2 ^ 72) (w.toNat / 2 ^ 64 % 256) (w.toNat % 2 ^ 64)

/-- A step on this word fails with `ERR_ILLEGAL`. -/
def RejectedWord (w : CmdWord) : Prop :=
  ∀ s rest, s.cmd = w :: rest → step s = .next (afterFailure .illegal { s with cmd := rest })

/-- R28, R25, R27, R29: what each control register reads as, as a number. -/
def registerValue (r : CReg) (s : State) : Nat :=
  match r with
  | .status =>
    s.eIllegal.toNat + 2 * s.eConfig.toNat + 4 * s.eRange.toNat +
      256 * (if s.crcWidth = 0 then 0 else 1)
  | .crcWidth => s.crcWidth.toNat
  | .crcPoly => s.crcPoly.toNat
  | .crcReg => s.crcReg.toNat
  | .crcResult => s.crcResult.toNat
  | .caps => s.params.wMax + 36 * 2 ^ 8 + 64 * 2 ^ 16

/-- R28: the index of each control register. -/
def registerIndex : CReg → Nat
  | .status => 0
  | .crcWidth => 1
  | .crcPoly => 2
  | .crcReg => 3
  | .crcResult => 4
  | .caps => 5

/-- R206: the first error that applies to a command, in the order illegal, config, range. Only an ill-formed push has
the error illegal here (log entry 8). -/
def firstError (i : Instr) (s : State) : Option Err :=
  match i with
  | .nop => none
  | .rdreg _ => none
  | .sreset => none
  | .crcStart => none
  | .riceEnc _ _ => none
  | .crcCfg width poly =>
    if width.toNat = 0 ∨ s.params.wMax < width.toNat then some .config
    else if 2 ^ width.toNat ≤ poly.toNat then some .range
    else none
  | .crcPush n bits =>
    if 64 < n.toNat then some .illegal
    else if s.crcWidth.toNat = 0 then some .config
    else if 2 ^ n.toNat ≤ bits.toNat then some .range
    else none
  | .crcPushf n bits =>
    if 64 < n.toNat then some .illegal
    else if s.crcWidth.toNat = 0 then some .config
    else if 2 ^ n.toNat ≤ bits.toNat then some .range
    else none
  | .crcFinal => if s.crcWidth.toNat = 0 then some .config else none
  | .crcAppend => if s.crcWidth.toNat = 0 then some .config else none
  | .vliEnc value => if 2 ^ 36 ≤ value.toNat then some .range else none

/-- R118: the bits a word absorbs on a configured unit: those of a push that passes its checks, no other. -/
def absorbedBits (w : CmdWord) : List Bit :=
  match decode w with
  | .ok (.crcPush n bits) => if bits.toNat < 2 ^ n.toNat then bitsN n.toNat bits.toNat else []
  | .ok (.crcPushf n bits) => if bits.toNat < 2 ^ n.toNat then bitsN n.toNat bits.toNat else []
  | _ => []

/-- R118: a word that may stand in a checksum's command sequence: any but `SRESET`, `CRC_START` and a
`CRC_CFG` that succeeds. -/
def KeepsChecksum (p : Params) (w : CmdWord) : Prop :=
  decode w ≠ .ok .sreset ∧ decode w ≠ .ok .crcStart ∧
  ∀ width poly, decode w = .ok (.crcCfg width poly) →
    width.toNat = 0 ∨ p.wMax < width.toNat ∨ 2 ^ width.toNat ≤ poly.toNat

/-- R118: `CRC_REG` is what shifting `bits` in from 0 leaves, with the configuration loaded. -/
def HoldsBits (s : State) (bits : List Bit) : Prop :=
  s.crcReg.toNat = crcShiftin s.crcPoly.toNat s.crcWidth.toNat 0 bits

/-- R118: the bits `CRC_REG` holds after word `w` executes, when it held `bits` in state `s`. `SRESET`, `CRC_START`
and a `CRC_CFG` that succeeds start again; a successful push adds its bits; any other word keeps them. -/
def bitsAfter (s : State) (bits : List Bit) (w : CmdWord) : List Bit :=
  match decode w with
  | .ok .sreset => []
  | .ok .crcStart => []
  | .ok (.crcCfg width poly) => if firstError (.crcCfg width poly) s = none then [] else bits
  | _ => if s.crcWidth = 0 then bits else bits ++ absorbedBits w

/-- A push operand that passes the checks of R112. -/
def GoodPush (d : Byte × Word64) : Prop := d.1.toNat ≤ 64 ∧ d.2.toNat < 2 ^ d.1.toNat

/-- The bits of push operands, in order. -/
def pushedBits (ds : List (Byte × Word64)) : List Bit :=
  ds.flatMap fun d => bitsN d.1.toNat d.2.toNat

open Polynomial in
/-- R105: the polynomial over GF(2) of a bit sequence, the first bit the highest coefficient. -/
noncomputable def polyOfBits : List Bit → (ZMod 2)[X]
  | [] => 0
  | b :: s => (if b then X ^ s.length else 0) + polyOfBits s

open Polynomial in
/-- R100: the generator polynomial `x^w + sum of poly[i] * x^i`. -/
noncomputable def generator (poly w : Nat) : (ZMod 2)[X] := X ^ w + polyOfBits (bitsN w poly)

end Sys2Proof.Claims

open Sys2Proof Sys2Proof.Machine Sys2Proof.Claims

/-! ## Encoding -/

/-- R76, R70: one word of every row, written out from the table, decodes to its command. -/
def Obligations.DecodeReadsWrittenWords : Prop :=
  decode 0x00000000000000000000 = .ok .nop ∧
  decode 0x01050000000000000000 = .ok (.rdreg .caps) ∧
  decode 0x02000000000000000000 = .ok .sreset ∧
  decode 0x10100000000000008005 = .ok (.crcCfg 16 0x8005) ∧
  decode 0x11000000000000000000 = .ok .crcStart ∧
  decode 0x120800000000000000C1 = .ok (.crcPush 8 0xC1) ∧
  decode 0x1310000000000000FFF8 = .ok (.crcPushf 16 0xFFF8) ∧
  decode 0x14000000000000000000 = .ok .crcFinal ∧
  decode 0x15000000000000000000 = .ok .crcAppend ∧
  decode 0x2000000000000000AC44 = .ok (.vliEnc 44100) ∧
  decode 0x30020000000000000009 = .ok (.riceEnc 2 9)

/-- R70 to R77: decoding the word of a well-formed instruction gives it back, at every operand value. -/
def Obligations.DecodeEncodeIsIdentity : Prop :=
  ∀ i : Instr, i.wf = true → decode (encode i) = .ok i

/-- R77: a legal word is the word of the one well-formed instruction it decodes to. -/
def Obligations.LegalWordHasOneInstruction : Prop :=
  ∀ (w : CmdWord) (i : Instr), decode w = .ok i → i.wf = true ∧ encode i = w

/-- R201: the causes of `ERR_ILLEGAL` are exactly the words no instruction is decoded from, and a step on
such a word fails with it. -/
def Obligations.IllegalWordsExactly : Prop :=
  (∀ w : CmdWord, (∃ i, decode w = .ok i) ↔ ¬ IllegalWord w) ∧
  (∀ w : CmdWord, IllegalWord w → RejectedWord w)

/-! ## Steps and streams -/

/-- R12, R30: when the next word decodes to `i`, the step accepts the word and is `exec i`. -/
def Obligations.StepRunsDecodedCommand : Prop :=
  ∀ (s : State) (w : CmdWord) (rest : List CmdWord) (i : Instr),
    s.cmd = w :: rest → decode w = .ok i → step s = exec i { s with cmd := rest }

/-- R220, R232; the model's choice of an idle step is log entry 1. -/
def Obligations.IdleBlockHoldsState : Prop :=
  ∀ s : State, s.cmd = [] → step s = .next s

/-- R77, R209, R30 to R32: a waiting word, legal or not, is accepted and answered by exactly one response; the
responses and the bits already given stay; a failing command emits nothing and responds 0. -/
def Obligations.StepAnswersOneResponse : Prop :=
  ∀ (s : State) (w : CmdWord) (rest : List CmdWord), s.cmd = w :: rest →
    ∃ (t : State) (r : Response) (e : List Bit), step s = .next t ∧
      t.cmd = rest ∧ t.params = s.params ∧ t.rsp = s.rsp ++ [r] ∧ t.outBits = s.outBits ++ e ∧
      (r.code ≠ .ok → e = [] ∧ r.value = 0)

/-- R250, R59: a list of commands runs to its end, one response a command, and running two lists one after the
other is running their concatenation. That the commands of a run wait in CMD as a list is the model's choice
(log entry 5). -/
def Obligations.RunAnswersEveryCommand : Prop :=
  ∀ (ws vs : List CmdWord) (s : State), ∃ t : State, runWords ws s = .next t ∧
    t.cmd = [] ∧ t.rsp.length = s.rsp.length + ws.length ∧ t.params = s.params ∧
    runWords (ws ++ vs) s = runWords vs t

/-- The model's choice, log entry 5: CMD is a queue that `hostSend` lengthens, so a word can be sent while others
wait. R251 lets the host send only after the previous word was accepted, so no rule speaks of such a word. In that
queue the statement says what R30 and R59 say of the order: a word sent later changes nothing of the step that runs
before it. -/
def Obligations.SendingDoesNotDisturb : Prop :=
  ∀ (s t : State) (w : CmdWord), s.cmd ≠ [] → step s = .next t →
    step (hostSend w s) = .next (hostSend w t)

/-- R74, R200: the response word's fields and the four codes. -/
def Obligations.ResponseWordLayout : Prop :=
  ∀ v : Word64,
    (Response.word ⟨.ok, v⟩).toNat = v.toNat ∧
    (Response.word ⟨.err .illegal, v⟩).toNat = 1 * 2 ^ 64 + v.toNat ∧
    (Response.word ⟨.err .config, v⟩).toNat = 2 * 2 ^ 64 + v.toNat ∧
    (Response.word ⟨.err .range, v⟩).toNat = 3 * 2 ^ 64 + v.toNat

/-- R10: `bits_N` has length `N` and element `i` is `(v >> (N-1-i)) mod 2`; `val` is its inverse; `sig(v)` is the
least `n` with `v < 2^n`. -/
def Obligations.BitConversionsAreInverse : Prop :=
  (∀ n v : Nat, v < 2 ^ n →
    (bitsN n v).length = n ∧ val (bitsN n v) = v ∧
    ∀ i : Nat, i < n →
      (bitsN n v)[i]? = some (decide (v >>> (n - 1 - i) % 2 = 1))) ∧
  (∀ s : List Bit, bitsN s.length (val s) = s) ∧
  (∀ v n : Nat, v < 2 ^ n ↔ sig v ≤ n)

/-! ## System commands -/

/-- R190. -/
def Obligations.NopOnlyResponds : Prop :=
  (∀ s : State, exec .nop s = .next (afterSuccess 0 s)) ∧
  (∀ (arg : Byte) (opd : Word64),
    (decode (mkWord 0x00 arg opd) = .ok .nop ↔ arg = 0 ∧ opd = 0) ∧
    (¬ (arg = 0 ∧ opd = 0) → RejectedWord (mkWord 0x00 arg opd)))

/-- R191, with R25, R27 and R29 for the values. -/
def Obligations.RdregReturnsRegister : Prop :=
  (∀ (s : State) (r : CReg), ∃ v : Word64,
    exec (.rdreg r) s = .next (afterSuccess v s) ∧ v.toNat = registerValue r s) ∧
  (∀ (index : Byte) (opd : Word64),
    (∀ r : CReg,
      decode (mkWord 0x01 index opd) = .ok (.rdreg r) ↔ index.toNat = registerIndex r ∧ opd = 0) ∧
    (5 < index.toNat ∨ opd ≠ 0 → RejectedWord (mkWord 0x01 index opd)))

/-- R192: the registers are cleared, the streams stay. -/
def Obligations.SresetClearsRegistersKeepsStreams : Prop :=
  (∀ s : State, exec .sreset s = .next (afterSuccess 0
    { State.resetWith s.params with cmd := s.cmd, out := s.out, rsp := s.rsp })) ∧
  (∀ (arg : Byte) (opd : Word64),
    (decode (mkWord 0x02 arg opd) = .ok .sreset ↔ arg = 0 ∧ opd = 0) ∧
    (¬ (arg = 0 ∧ opd = 0) → RejectedWord (mkWord 0x02 arg opd)))

/-- R39, R230: after either reset every register but `CAPS` is 0 and reads 0; `CAPS` keeps its value. -/
def Obligations.ResetsSetEveryRegister : Prop :=
  ∀ s t : State, t = hardwareReset s ∨ exec .sreset s = .next t →
    t.crcWidth = 0 ∧ t.crcPoly = 0 ∧ t.crcReg = 0 ∧ t.crcResult = 0 ∧ t.NoError ∧
    (∀ r : CReg, r ≠ .caps → readReg r t = 0) ∧ readReg .caps t = readReg .caps s

/-- R231: hardware reset starts a run with OUT and RSP empty. That it also empties CMD is the model's reading, log
entry 6: R231 speaks of OUT and RSP only, and words still waiting belong to the run the reset ended. Resetting the
reset state changes nothing (R233: a model takes reset only as the start of a run). -/
def Obligations.HardwareResetEmptiesStreams : Prop :=
  (∀ s : State, (hardwareReset s).cmd = [] ∧ (hardwareReset s).out = [] ∧ (hardwareReset s).rsp = []) ∧
  (∀ p : Params, hardwareReset (State.resetWith p) = State.resetWith p)

/-! ## CRC commands -/

/-- R110. -/
def Obligations.CrcCfgLoadsSpec : Prop :=
  ∀ (s : State) (width : Byte) (poly : Word64),
    decode (mkWord 0x10 width poly) = .ok (.crcCfg width poly) ∧
    (width = 0 ∨ s.params.wMax < width.toNat →
      exec (.crcCfg width poly) s = .next (afterFailure .config s)) ∧
    (width ≠ 0 → width.toNat ≤ s.params.wMax → 2 ^ width.toNat ≤ poly.toNat →
      exec (.crcCfg width poly) s = .next (afterFailure .range s)) ∧
    (width ≠ 0 → width.toNat ≤ s.params.wMax → poly.toNat < 2 ^ width.toNat →
      exec (.crcCfg width poly) s = .next (afterSuccess 0
        { s with crcWidth := width, crcPoly := poly, crcReg := 0, crcResult := 0 }))

/-- R111. -/
def Obligations.CrcStartZeroesRegister : Prop :=
  (∀ s : State, exec .crcStart s = .next (afterSuccess 0 { s with crcReg := 0 })) ∧
  (∀ (arg : Byte) (opd : Word64),
    (decode (mkWord 0x11 arg opd) = .ok .crcStart ↔ arg = 0 ∧ opd = 0) ∧
    (¬ (arg = 0 ∧ opd = 0) → RejectedWord (mkWord 0x11 arg opd)))

/-- R109: the four data commands on an unconfigured unit; `CRC_START` is exempt. -/
def Obligations.CrcDataNeedsConfiguration : Prop :=
  ∀ (s : State) (n : Byte) (bits : Word64), s.crcWidth = 0 → n.toNat ≤ 64 →
    exec (.crcPush n bits) s = .next (afterFailure .config s) ∧
    exec (.crcPushf n bits) s = .next (afterFailure .config s) ∧
    exec .crcFinal s = .next (afterFailure .config s) ∧
    exec .crcAppend s = .next (afterFailure .config s) ∧
    exec .crcStart s = .next (afterSuccess 0 { s with crcReg := 0 })

/-- R112; last clause: one push of `m + n` bits and two pushes of `m` and `n` leave the same `CRC_REG`. -/
def Obligations.CrcPushAbsorbsBits : Prop :=
  (∀ (s : State) (n : Byte) (bits : Word64),
    (decode (mkWord 0x12 n bits) = .ok (.crcPush n bits) ↔ n.toNat ≤ 64) ∧
    (64 < n.toNat → RejectedWord (mkWord 0x12 n bits)) ∧
    (n.toNat ≤ 64 → s.crcWidth = 0 → exec (.crcPush n bits) s = .next (afterFailure .config s)) ∧
    (n.toNat ≤ 64 → s.crcWidth ≠ 0 → 2 ^ n.toNat ≤ bits.toNat →
      exec (.crcPush n bits) s = .next (afterFailure .range s)) ∧
    (s.Inv → n.toNat ≤ 64 → s.crcWidth ≠ 0 → bits.toNat < 2 ^ n.toNat →
      ∃ t : State, exec (.crcPush n bits) s = .next t ∧
        t.crcReg.toNat = crcShiftin s.crcPoly.toNat s.crcWidth.toNat s.crcReg.toNat
          (bitsN n.toNat bits.toNat) ∧
        t = afterSuccess 0 { s with crcReg := t.crcReg })) ∧
  (∀ (s : State) (m n l : Byte) (a b c : Word64), s.Inv → s.crcWidth ≠ 0 →
    l.toNat = m.toNat + n.toNat → l.toNat ≤ 64 → a.toNat < 2 ^ m.toNat → b.toNat < 2 ^ n.toNat →
    c.toNat = a.toNat * 2 ^ n.toNat + b.toNat →
    ∃ t u v : State, exec (.crcPush m a) s = .next t ∧ exec (.crcPush n b) t = .next u ∧
      exec (.crcPush l c) s = .next v ∧ u.crcReg = v.crcReg)

/-- R113. -/
def Obligations.CrcPushfAbsorbsAndEmits : Prop :=
  ∀ (s : State) (n : Byte) (bits : Word64),
    (decode (mkWord 0x13 n bits) = .ok (.crcPushf n bits) ↔ n.toNat ≤ 64) ∧
    (64 < n.toNat → RejectedWord (mkWord 0x13 n bits)) ∧
    (n.toNat ≤ 64 → s.crcWidth = 0 → exec (.crcPushf n bits) s = .next (afterFailure .config s)) ∧
    (n.toNat ≤ 64 → s.crcWidth ≠ 0 → 2 ^ n.toNat ≤ bits.toNat →
      exec (.crcPushf n bits) s = .next (afterFailure .range s)) ∧
    (s.Inv → n.toNat ≤ 64 → s.crcWidth ≠ 0 → bits.toNat < 2 ^ n.toNat →
      ∃ t : State, exec (.crcPushf n bits) s = .next t ∧
        t.crcReg.toNat = crcShiftin s.crcPoly.toNat s.crcWidth.toNat s.crcReg.toNat
          (bitsN n.toNat bits.toNat) ∧
        t.outBits = s.outBits ++ bitsN n.toNat bits.toNat ∧
        t = afterSuccess 0 { s with crcReg := t.crcReg, out := t.out })

/-- R115: the pseudocode, and "`CRC_REG` is *not* changed: the flush is computed on a copy". -/
def Obligations.CrcFinalReturnsFlush : Prop :=
  (∀ s : State, s.crcWidth = 0 → exec .crcFinal s = .next (afterFailure .config s)) ∧
  (∀ s : State, s.Inv → s.crcWidth ≠ 0 → ∃ c : Word64,
    c.toNat = crcShiftin s.crcPoly.toNat s.crcWidth.toNat s.crcReg.toNat
      (List.replicate s.crcWidth.toNat false) ∧
    c.toNat < 2 ^ s.crcWidth.toNat ∧
    exec .crcFinal s = .next (afterSuccess c { s with crcResult := c })) ∧
  (∀ (arg : Byte) (opd : Word64),
    (decode (mkWord 0x14 arg opd) = .ok .crcFinal ↔ arg = 0 ∧ opd = 0) ∧
    (¬ (arg = 0 ∧ opd = 0) → RejectedWord (mkWord 0x14 arg opd)))

/-- R116. -/
def Obligations.CrcAppendEmitsFlush : Prop :=
  (∀ s : State, s.crcWidth = 0 → exec .crcAppend s = .next (afterFailure .config s)) ∧
  (∀ s : State, s.Inv → s.crcWidth ≠ 0 → ∃ (c : Word64) (t : State),
    c.toNat = crcShiftin s.crcPoly.toNat s.crcWidth.toNat s.crcReg.toNat
      (List.replicate s.crcWidth.toNat false) ∧
    exec .crcAppend s = .next t ∧
    t.outBits = s.outBits ++ bitsN s.crcWidth.toNat c.toNat ∧
    t = afterSuccess c { s with crcResult := c, out := t.out }) ∧
  (∀ (arg : Byte) (opd : Word64),
    (decode (mkWord 0x15 arg opd) = .ok .crcAppend ↔ arg = 0 ∧ opd = 0) ∧
    (¬ (arg = 0 ∧ opd = 0) → RejectedWord (mkWord 0x15 arg opd)))

/-- R247: `CRC_FINAL` right after `CRC_APPEND` "returns the same checksum again", and neither disturbs
`CRC_REG`. -/
def Obligations.FinalAfterAppendRepeats : Prop :=
  ∀ s : State, s.Inv → s.crcWidth ≠ 0 → ∃ (c : Word64) (t u : State),
    exec .crcAppend s = .next t ∧ exec .crcFinal t = .next u ∧
    u.rsp = s.rsp ++ [⟨.ok, c⟩, ⟨.ok, c⟩] ∧ t.crcReg = s.crcReg ∧ u.crcReg = s.crcReg ∧
    u.outBits = t.outBits

/-! ## Encoders -/

/-- R147, R148. -/
def Obligations.VliEncEmitsCode : Prop :=
  ∀ (s : State) (value : Word64),
    (∀ arg : Byte, (decode (mkWord 0x20 arg value) = .ok (.vliEnc value) ↔ arg = 0) ∧
      (arg ≠ 0 → RejectedWord (mkWord 0x20 arg value))) ∧
    (2 ^ 36 ≤ value.toNat → exec (.vliEnc value) s = .next (afterFailure .range s)) ∧
    (value.toNat < 2 ^ 36 → ∃ t : State, exec (.vliEnc value) s = .next t ∧
      t.outBits = s.outBits ++ vliEncode value.toNat ∧
      t = afterSuccess 0 { s with out := t.out })

/-- R174, R171: the emission as the rule writes it. -/
def Obligations.RiceEncEmitsCode : Prop :=
  ∀ (s : State) (k : Byte) (value : Word64),
    decode (mkWord 0x30 k value) = .ok (.riceEnc k value) ∧
    ∃ t : State, exec (.riceEnc k value) s = .next t ∧
      t.outBits = s.outBits ++ (List.replicate (value.toNat >>> k.toNat) true ++ [false] ++
        bitsN k.toNat (value.toNat % 2 ^ k.toNat)) ∧
      t = afterSuccess 0 { s with out := t.out }

/-- R37: what `VLI_ENC` and `RICE_ENC` emit and respond is the same from every state. -/
def Obligations.EncodersAreStateless : Prop :=
  ∀ (k : Byte) (value : Word64) (i : Instr), i = .vliEnc value ∨ i = .riceEnc k value →
    ∃ (r : Response) (e : List Bit), ∀ s : State, ∃ t : State, exec i s = .next t ∧
      t.rsp = s.rsp ++ [r] ∧ t.outBits = s.outBits ++ e

/-! ## Whole-machine rules -/

/-- R202, R203, R204, R206, R26: a command fails with the first error that applies, changing only its flag, and
succeeds when none does; a success changes no sticky flag, but for `SRESET`. The statement covers `crcPush` and
`crcPushf` with a count above 64 as well, terms that no word decodes to: that `exec` fails them with `ERR_ILLEGAL`, as
R201(d) fails their words, is the model's inference (log entry 8). -/
def Obligations.CommandsFailByFirstError : Prop :=
  ∀ (i : Instr) (s : State),
    (∀ e : Err, firstError i s = some e → exec i s = .next (afterFailure e s)) ∧
    (firstError i s = none → ∃ (t : State) (v : Word64), exec i s = .next t ∧
      t.rsp = s.rsp ++ [⟨.ok, v⟩] ∧ t.cmd = s.cmd ∧
      (i ≠ .sreset → ∀ e : Err, sticky e t = sticky e s))

/-- R26: a sticky flag is set by every command that fails with its code and by nothing else, and cleared by `SRESET`
and hardware reset only. -/
def Obligations.StickyFlagsFollowFailures : Prop :=
  (∀ (s t : State) (w : CmdWord) (rest : List CmdWord), s.cmd = w :: rest → step s = .next t →
    ∃ r : Response, t.rsp = s.rsp ++ [r] ∧
      ∀ e : Err, sticky e t = true ↔
        r.code = .err e ∨ (sticky e s = true ∧ decode w ≠ .ok .sreset)) ∧
  (∀ (s : State) (e : Err), sticky e (hardwareReset s) = false)

/-- R251, R26: over a whole run from reset, an all-`OK` response list leaves no flag set, and without an `SRESET` the
flags are clear only if every response was `OK`. -/
def Obligations.FlagsAgreeWithResponses : Prop :=
  ∀ (p : Params) (ws : List CmdWord), ∃ t : State, runWords ws (State.resetWith p) = .next t ∧
    (t.allOk = true → t.NoError) ∧
    ((∀ w ∈ ws, decode w ≠ .ok .sreset) → t.NoError → t.allOk = true)

/-- R31: only `CRC_PUSHF`, `CRC_APPEND`, `VLI_ENC` and `RICE_ENC` emit, and only when they succeed. -/
def Obligations.OnlyFourCommandsEmit : Prop :=
  ∀ (s t : State) (w : CmdWord) (rest : List CmdWord), s.cmd = w :: rest → step s = .next t →
    t.outBits ≠ s.outBits →
    ∃ (i : Instr) (v : Word64), decode w = .ok i ∧ t.rsp = s.rsp ++ [⟨.ok, v⟩] ∧
      ((∃ n bits, i = .crcPushf n bits) ∨ i = .crcAppend ∨ (∃ x, i = .vliEnc x) ∨
        (∃ k x, i = .riceEnc k x))

/-- R21 to R24, 90_conflicts.md C13: which commands can change each CRC register. -/
def Obligations.CrcRegisterWriters : Prop :=
  ∀ (s t : State) (w : CmdWord) (rest : List CmdWord), s.cmd = w :: rest → step s = .next t →
    (t.crcWidth ≠ s.crcWidth ∨ t.crcPoly ≠ s.crcPoly →
      decode w = .ok .sreset ∨ decode w = .ok (.crcCfg t.crcWidth t.crcPoly)) ∧
    (t.crcReg ≠ s.crcReg →
      (∃ n bits, decode w = .ok (.crcPush n bits) ∨ decode w = .ok (.crcPushf n bits)) ∨
      (t.crcReg = 0 ∧ (decode w = .ok .sreset ∨ decode w = .ok .crcStart ∨
        decode w = .ok (.crcCfg t.crcWidth t.crcPoly)))) ∧
    (t.crcResult ≠ s.crcResult →
      ((decode w = .ok .crcFinal ∨ decode w = .ok .crcAppend) ∧
        t.rsp = s.rsp ++ [⟨.ok, t.crcResult⟩]) ∨
      (t.crcResult = 0 ∧ (decode w = .ok .sreset ∨
        decode w = .ok (.crcCfg t.crcWidth t.crcPoly))))

/-- R38, the spec's inference from R39, R101 and R110 to R116: the invariants hold after reset and are preserved by
every step, from every state that meets them; with `CRC_WIDTH = 0` they say the other three registers are 0. -/
def Obligations.InvariantKeptByEveryStep : Prop :=
  (∀ p : Params, (State.resetWith p).Inv) ∧
  (∀ s t : State, s.Inv → step s = .next t → t.Inv) ∧
  (∀ s : State, s.Inv → s.crcWidth = 0 → s.crcPoly = 0 ∧ s.crcReg = 0 ∧ s.crcResult = 0)

/-- R38, R39: the invariants hold after reset, for every `W_MAX`; and OUT is in canonical form (log entry 3). -/
def Obligations.InvariantsHoldAtReset : Prop :=
  ∀ p : Params, (State.resetWith p).Inv ∧ (State.resetWith p).OutCanonical

/-- Log entry 3 (the model's choice): every step keeps OUT's runs in canonical form. -/
def Obligations.OutStaysCanonical : Prop :=
  ∀ s t : State, s.OutCanonical → step s = .next t → t.OutCanonical

/-- Log entry 3 (the model's choice): equal bit sequences are equal canonical runs, so equal streams are equal
data. -/
def Obligations.CanonicalRunsAreUnique : Prop :=
  ∀ a b : List Run, canonical a = true → canonical b = true → runsBits a = runsBits b → a = b

/-! ## Laws of the CRC -/

/-- R101: the step with the top bit dropped, in both arms, and its bound. -/
def Obligations.CrcShiftIsDivisionStep : Prop :=
  ∀ (poly w reg : Nat) (b : Bit), 1 ≤ w → poly < 2 ^ w → reg < 2 ^ w →
    crcShift poly w reg b =
      ((((reg % 2 ^ (w - 1)) <<< 1) ||| b.toNat) ^^^ if 2 ^ (w - 1) ≤ reg then poly else 0) ∧
    crcShift poly w reg b < 2 ^ w

/-- R104, the spec's inference from R101 to R103: the checksum needs no separate seeding. -/
def Obligations.CrcComputeShiftsFromZero : Prop :=
  ∀ (poly w : Nat) (s : List Bit), 1 ≤ w → poly < 2 ^ w →
    crcCompute poly w s = crcShiftin poly w 0 (s ++ List.replicate w false)

open Polynomial in
/-- R105, the spec's inference from R100, R101 and R104: a step is `(R * x + b) mod G`, the register is `S mod G`, the checksum is `(S * x^w) mod G`. -/
def Obligations.CrcIsPolynomialRemainder : Prop :=
  ∀ (poly w : Nat), 1 ≤ w → poly < 2 ^ w →
    (∀ (reg : Nat) (b : Bit), reg < 2 ^ w →
      polyOfBits (bitsN w (crcShift poly w reg b)) =
        (polyOfBits (bitsN w reg) * X + polyOfBits [b]).modByMonic (generator poly w)) ∧
    (∀ s : List Bit,
      polyOfBits (bitsN w (crcShiftin poly w 0 s)) = (polyOfBits s).modByMonic (generator poly w) ∧
      polyOfBits (bitsN w (crcCompute poly w s)) =
        (polyOfBits s * X ^ w).modByMonic (generator poly w))

/-- R107 (a) to (f): the edge cases of the checksum. -/
def Obligations.CrcEdgeCases : Prop :=
  (∀ poly w : Nat, 1 ≤ w → poly < 2 ^ w →
    crcCompute poly w [] = 0 ∧
    (∀ n : Nat, crcCompute poly w (List.replicate n false) = 0) ∧
    crcCompute poly w [true] = poly ∧
    (∀ s : List Bit, crcCompute poly w (false :: s) = crcCompute poly w s)) ∧
  (∀ (w : Nat) (s : List Bit), 1 ≤ w → crcCompute 0 w s = 0) ∧
  (∀ s : List Bit, crcCompute 1 1 s = s.count true % 2)

/-- R118, the spec's inference from R102, R104 and R110 to R116: the streaming law, over whole command lists. -/
def Obligations.CrcStreaming : Prop :=
  ∀ (s : State) (ws : List CmdWord), s.Inv → s.crcWidth ≠ 0 → s.crcReg = 0 →
    (∀ w ∈ ws, KeepsChecksum s.params w) →
    ∃ (t u v : State) (c : Word64), runWords ws s = .next t ∧
      t.crcWidth = s.crcWidth ∧ t.crcPoly = s.crcPoly ∧
      t.crcReg.toNat =
        crcShiftin s.crcPoly.toNat s.crcWidth.toNat 0 (ws.flatMap absorbedBits) ∧
      c.toNat = crcCompute s.crcPoly.toNat s.crcWidth.toNat (ws.flatMap absorbedBits) ∧
      exec .crcFinal t = .next u ∧ u.rsp = t.rsp ++ [⟨.ok, c⟩] ∧
      exec .crcAppend t = .next v ∧ v.rsp = t.rsp ++ [⟨.ok, c⟩]

/-- R118, R21, step by step (the spec's inference from R102, R104 and R110 to R116): every step keeps `CRC_REG` the
register that the bits absorbed since it was last set to 0 leave, from every state that meets R38's invariants, and
reset starts with no bits. -/
def Obligations.CrcRegisterHoldsAbsorbedBits : Prop :=
  (∀ p : Params, HoldsBits (State.resetWith p) []) ∧
  (∀ (s t : State) (bits : List Bit), s.Inv → HoldsBits s bits → step s = .next t →
    t.Inv ∧ (s.cmd = [] → HoldsBits t bits) ∧
    ∀ (w : CmdWord) (rest : List CmdWord), s.cmd = w :: rest → HoldsBits t (bitsAfter s bits w))

/-- R119, the spec's inference from R106, R113, R116 and R118: the two recipes, from any state: the last response is
`compute`, and OUT receives `append`. -/
def Obligations.CrcRecipes : Prop :=
  ∀ (s : State) (width : Byte) (poly : Word64) (ds : List (Byte × Word64)),
    width ≠ 0 → width.toNat ≤ s.params.wMax → poly.toNat < 2 ^ width.toNat →
    (∀ d ∈ ds, GoodPush d) →
    (∃ (t : State) (c : Word64),
      runWords ([encode (.crcCfg width poly), encode .crcStart] ++
        ds.map (fun d => encode (.crcPush d.1 d.2)) ++ [encode .crcFinal]) s = .next t ∧
      c.toNat = crcCompute poly.toNat width.toNat (pushedBits ds) ∧
      t.rsp.getLast? = some ⟨.ok, c⟩ ∧ t.outBits = s.outBits) ∧
    (∃ t : State,
      runWords ([encode (.crcCfg width poly), encode .crcStart] ++
        ds.map (fun d => encode (.crcPushf d.1 d.2)) ++ [encode .crcAppend]) s = .next t ∧
      t.outBits = s.outBits ++ crcAppend (pushedBits ds)
        (crcCompute poly.toNat width.toNat (pushedBits ds)) width.toNat)

/-- R120: the checksum of checksummed data is 0, as a law of the reference function and on the block. The value 0 is
the spec's inference from R105. -/
def Obligations.CrcIntegrity : Prop :=
  (∀ (poly w : Nat) (b : List Bit), 1 ≤ w → poly < 2 ^ w →
    crcCompute poly w (crcAppend b (crcCompute poly w b) w) = 0) ∧
  (∀ (s : State) (ds : List (Byte × Word64)), s.Inv → s.crcWidth ≠ 0 → (∀ d ∈ ds, GoodPush d) →
    ∃ (t u : State) (c : Word64),
      runWords ([encode .crcStart] ++ ds.map (fun d => encode (.crcPush d.1 d.2)) ++
        [encode .crcFinal]) s = .next t ∧
      t.rsp.getLast? = some ⟨.ok, c⟩ ∧
      runWords ([encode .crcStart] ++ ds.map (fun d => encode (.crcPush d.1 d.2)) ++
        [encode (.crcPush s.crcWidth c), encode .crcFinal]) t = .next u ∧
      u.rsp.getLast? = some ⟨.ok, 0⟩)

/-- R121, the spec's inference from R105: linearity. -/
def Obligations.CrcIsLinear : Prop :=
  ∀ (poly w : Nat) (s t : List Bit), 1 ≤ w → poly < 2 ^ w → s.length = t.length →
    crcCompute poly w (List.zipWith (fun a b => a ^^ b) s t) =
      crcCompute poly w s ^^^ crcCompute poly w t

/-! ## Laws of the variable-length integer -/

/-- R142: the rows by value range, the spec's inference from R141. -/
def Obligations.VliRowRanges : Prop :=
  ∀ v : Nat,
    (vliRow v = some 1 ↔ v ≤ 0x7F) ∧
    (vliRow v = some 2 ↔ 0x80 ≤ v ∧ v ≤ 0x7FF) ∧
    (vliRow v = some 3 ↔ 0x800 ≤ v ∧ v ≤ 0xFFFF) ∧
    (vliRow v = some 4 ↔ 0x10000 ≤ v ∧ v ≤ 0x1FFFFF) ∧
    (vliRow v = some 5 ↔ 0x200000 ≤ v ∧ v ≤ 0x3FFFFFF) ∧
    (vliRow v = some 6 ↔ 0x4000000 ≤ v ∧ v ≤ 0x7FFFFFFF) ∧
    (vliRow v = some 7 ↔ 0x80000000 ≤ v ∧ v ≤ 0xFFFFFFFFF) ∧
    (vliRow v = none ↔ 0x1000000000 ≤ v)

/-- R146: the length is `8 * vli_row(v)`. -/
def Obligations.VliLengthIsRow : Prop :=
  ∀ v : Nat, v < 2 ^ 36 → ∃ n : Nat, 1 ≤ n ∧ n ≤ 7 ∧ vliRow v = some n ∧
    (vliEncode v).length = 8 * n

/-- R144, the spec's inference from R143: the encoding as byte values, and the value bits in the leading byte stay below
`2^L(n)`, `L(n) = 7 - n`, so they never touch the prefix bits. -/
def Obligations.VliByteValues : Prop :=
  ∀ v n : Nat, vliRow v = some n →
    (n = 1 → val (vliEncode v) = v) ∧
    (2 ≤ n → v >>> (6 * (n - 1)) < 2 ^ (7 - n) ∧
      val ((vliEncode v).take 8) = ((2 ^ n - 1) <<< (8 - n)) ||| (v >>> (6 * (n - 1))) ∧
      ∀ j : Nat, 1 ≤ j → j ≤ n - 1 →
        val (((vliEncode v).drop (8 * j)).take 8) =
          0x80 ||| ((v >>> (6 * (n - 1 - j))) &&& 0x3F))

/-- R150: round trip, whatever follows; "whatever follows" is the spec's inference from R143 and R149. -/
def Obligations.VliRoundTrip : Prop :=
  ∀ (v : Nat) (t : List Bit), v < 2 ^ 36 → ∃ n : Nat, vliRow v = some n ∧
    vliDecode (vliEncode v ++ t) = .ok v (8 * n)

/-- R149: `vli_decode` is the exact partial inverse of `vli_encode`. -/
def Obligations.VliDecodeIsExactInverse : Prop :=
  ∀ (s : List Bit) (v m : Nat), vliDecode s = .ok v m ↔
    v < 2 ^ 36 ∧ m = (vliEncode v).length ∧ ∃ t : List Bit, s = vliEncode v ++ t

/-- R151: no code is the beginning of another, concatenations cut back in one way, and a larger value has a
lexicographically larger code. -/
def Obligations.VliIsPrefixFree : Prop :=
  (∀ v v' : Nat, v < 2 ^ 36 → v' < 2 ^ 36 → v ≠ v' → ¬ vliEncode v <+: vliEncode v') ∧
  (∀ vs vs' : List Nat, (∀ v ∈ vs, v < 2 ^ 36) → (∀ v ∈ vs', v < 2 ^ 36) →
    vs.flatMap vliEncode = vs'.flatMap vliEncode → vs = vs') ∧
  (∀ v v' : Nat, v < v' → v' < 2 ^ 36 → vliEncode v < vliEncode v')

/-- R152, the spec's inference from R141: the leading byte begins `0` or `11` and is never `11111111`. -/
def Obligations.VliLeadIsNoContinuation : Prop :=
  ∀ v : Nat, v < 2 ^ 36 →
    ((vliEncode v).take 1 = [false] ∨ (vliEncode v).take 2 = [true, true]) ∧
    (vliEncode v).take 8 ≠ List.replicate 8 true

/-! ## Laws of the Rice code -/

/-- R172. -/
def Obligations.RiceLength : Prop :=
  ∀ v k : Nat, (riceEncode v k).length = (v >>> k) + 1 + k

/-- R173 (a) to (d). -/
def Obligations.RiceEdgeCases : Prop :=
  (∀ v : Nat, riceEncode v 0 = List.replicate v true ++ [false]) ∧
  (∀ k : Nat, riceEncode 0 k = false :: List.replicate k false) ∧
  (∀ v k : Nat, v < 2 ^ k → riceEncode v k = false :: bitsN k v) ∧
  (∀ v k : Nat, sig v ≤ k →
    riceEncode v k = false :: (List.replicate (k - sig v) false ++ bitsN (sig v) v))

/-- R176: round trip, whatever follows. -/
def Obligations.RiceRoundTrip : Prop :=
  ∀ (v k : Nat) (t : List Bit),
    riceDecode (riceEncode v k ++ t) k = .ok v ((v >>> k) + 1 + k)

/-- R177: for a fixed `k` no code is the beginning of another, and concatenations cut back in one way. -/
def Obligations.RiceIsPrefixFree : Prop :=
  ∀ k : Nat,
    (∀ v v' : Nat, v ≠ v' → ¬ riceEncode v k <+: riceEncode v' k) ∧
    (∀ vs vs' : List Nat,
      vs.flatMap (fun v => riceEncode v k) = vs'.flatMap (fun v => riceEncode v k) → vs = vs')

/-- R178: the length never decreases with the value and grows by one bit for every `2^k`. -/
def Obligations.RiceCostGrows : Prop :=
  ∀ v v' k : Nat,
    (v ≤ v' → (riceEncode v k).length ≤ (riceEncode v' k).length) ∧
    (riceEncode (v + 2 ^ k) k).length = (riceEncode v k).length + 1
end

