-- ==== Sys2Proof/Laws/Bits.lean ====
section
/-! SUPPORT. The small lemmas of the bit-sequence conversions (rule R10) and of sequences held as runs. -/

namespace Sys2Proof.Machine

/-! ## `bitsN` and `val` -/

@[simp] theorem bitsN_length (n v : Nat) : (bitsN n v).length = n := by
  induction n with
  | zero => rfl
  | succ n ih => simp [bitsN, ih]

theorem val_lt (s : List Bit) : val s < 2 ^ s.length := by
  induction s with
  | nil => simp [val]
  | cons b s ih => cases b <;> simp [val, pow_succ] <;> omega

theorem val_append (s t : List Bit) : val (s ++ t) = val s * 2 ^ t.length + val t := by
  induction s with
  | nil => simp [val]
  | cons b s ih => simp [val, ih, pow_add]; ring

@[simp] theorem val_replicate_false (n : Nat) : val (List.replicate n false) = 0 := by
  induction n with
  | zero => rfl
  | succ n ih => simp [List.replicate_succ, val, ih]

theorem val_bitsN (n v : Nat) : val (bitsN n v) = v % 2 ^ n := by
  induction n with
  | zero => simp [bitsN, val, Nat.mod_one]
  | succ n ih =>
    have h : v % 2 ^ (n + 1) = v % 2 ^ n + 2 ^ n * (v / 2 ^ n % 2) := by rw [pow_succ, Nat.mod_mul]
    have hb : (v.testBit n).toNat = v / 2 ^ n % 2 := by rw [Nat.toNat_testBit]
    simp only [bitsN, val, bitsN_length, ih, h, hb]
    ring

/-! ## Runs -/

@[simp] theorem runsBits_append (a b : List Run) : runsBits (a ++ b) = runsBits a ++ runsBits b := by
  induction a with
  | nil => rfl
  | cons r a ih => simp [runsBits, ih]

@[simp] theorem runsBits_runsOfBits (s : List Bit) : runsBits (runsOfBits s) = s := by
  induction s with
  | nil => rfl
  | cons b s ih =>
    have h : runsOfBits (b :: s) = ⟨b, 1⟩ :: runsOfBits s := rfl
    simp [h, runsBits, ih]

@[simp] theorem runsBits_appendRun (rs : List Run) (r : Run) :
    runsBits (appendRun rs r) = runsBits rs ++ List.replicate r.count r.bit := by
  induction rs, r using appendRun.induct with
  | case1 r h => simp [appendRun, h, runsBits]
  | case2 r h => simp [appendRun, h, runsBits]
  | case3 x r h => simp [appendRun, h, runsBits]
  | case4 x r h hb => simp [appendRun, h, hb, runsBits]
  | case5 x r h hb => simp [appendRun, h, hb, runsBits]
  | case6 x y rs r ih => rw [appendRun, runsBits, ih]; simp [runsBits]

/-- What `emit` adds to OUT is exactly the emitted sequence. -/
@[simp] theorem runsBits_appendRuns (rs e : List Run) :
    runsBits (appendRuns rs e) = runsBits rs ++ runsBits e := by
  induction e generalizing rs with
  | nil => simp [appendRuns, runsBits]
  | cons r e ih =>
    have h : appendRuns rs (r :: e) = appendRuns (appendRun rs r) e := rfl
    simp [h, ih, runsBits]

/-- `appendRun` on a sequence of at least one run keeps the first run's bit. -/
theorem appendRun_cons (x : Run) (rs : List Run) (r : Run) :
    ∃ c rest, appendRun (x :: rs) r = ⟨x.bit, c⟩ :: rest ∧ x.count ≤ c := by
  cases rs with
  | nil =>
    by_cases h : r.count = 0
    · exact ⟨x.count, [], by simp [appendRun, h], le_refl _⟩
    · by_cases hb : x.bit = r.bit
      · exact ⟨x.count + r.count, [], by simp [appendRun, h, hb], by omega⟩
      · exact ⟨x.count, [r], by simp [appendRun, h, hb], le_refl _⟩
  | cons y rs => exact ⟨x.count, appendRun (y :: rs) r, by simp [appendRun], le_refl _⟩

theorem canonical_appendRun (rs : List Run) (r : Run) (h : canonical rs = true) :
    canonical (appendRun rs r) = true := by
  induction rs, r using appendRun.induct with
  | case1 r h0 => simp [appendRun, h0, canonical]
  | case2 r h0 => simp [appendRun, h0, canonical]; omega
  | case3 x r h0 => simpa [appendRun, h0] using h
  | case4 x r h0 hb => simp [appendRun, h0, hb, canonical]; omega
  | case5 x r h0 hb => simp [appendRun, h0, hb, canonical] at h ⊢; omega
  | case6 x y rs r ih =>
    obtain ⟨c, rest, he, hc⟩ := appendRun_cons y rs r
    simp only [canonical, Bool.and_eq_true] at h
    have ih' := ih h.2
    rw [appendRun, he] at *
    simp only [canonical, Bool.and_eq_true]
    exact ⟨h.1, ih'⟩

/-- Emitting keeps OUT's canonical form. -/
theorem canonical_appendRuns (rs e : List Run) (h : canonical rs = true) :
    canonical (appendRuns rs e) = true := by
  induction e generalizing rs with
  | nil => exact h
  | cons r e ih => exact ih (appendRun rs r) (canonical_appendRun rs r h)

end Sys2Proof.Machine
end

