-- ==== Sys2Proof/Laws/Crc.lean ====
section
/-! SUPPORT. The division step on its domain (rule R101) and the shifting in of sequences (R102). -/

namespace Sys2Proof.Machine

@[simp] theorem crcShiftin_nil (poly w reg : Nat) : crcShiftin poly w reg [] = reg := rfl

@[simp] theorem crcShiftin_cons (poly w reg : Nat) (b : Bit) (s : List Bit) :
    crcShiftin poly w reg (b :: s) = crcShiftin poly w (crcShift poly w reg b) s := rfl

/-- R102: a sequence may be shifted in by pieces. -/
theorem crcShiftin_append (poly w reg : Nat) (s t : List Bit) :
    crcShiftin poly w reg (s ++ t) = crcShiftin poly w (crcShiftin poly w reg s) t := by
  induction s generalizing reg with
  | nil => rfl
  | cons b s ih => simp [ih]

/-- A bit joined below a shifted value, as a sum. -/
theorem shift_or_bit (x : Nat) (b : Bit) : (x <<< 1) ||| b.toNat = 2 * x + b.toNat := by
  rw [Nat.shiftLeft_eq, pow_one, Nat.mul_comm]
  rw [← Nat.two_pow_add_eq_or_of_lt (i := 1)]
  cases b <;> simp

/-- R38(c), R101: the step maps a register below `2^w` to a register below `2^w`. -/
theorem crcShift_lt {poly w reg : Nat} (hw : 1 ≤ w) (hp : poly < 2 ^ w) (hr : reg < 2 ^ w) (b : Bit) :
    crcShift poly w reg b < 2 ^ w := by
  obtain ⟨m, rfl⟩ : ∃ m, w = m + 1 := ⟨w - 1, by omega⟩
  have h2 : 2 ^ (m + 1) = 2 * 2 ^ m := by ring
  have hb : b.toNat ≤ 1 := Bool.toNat_le b
  unfold crcShift
  simp only [Nat.add_sub_cancel, shift_or_bit]
  split
  · exact Nat.xor_lt_two_pow (by omega) hp
  · simp only [Nat.xor_zero]; omega

theorem crcShiftin_lt {poly w reg : Nat} (hw : 1 ≤ w) (hp : poly < 2 ^ w) (hr : reg < 2 ^ w)
    (s : List Bit) : crcShiftin poly w reg s < 2 ^ w := by
  induction s generalizing reg with
  | nil => exact hr
  | cons b s ih => exact ih (crcShift_lt hw hp hr b)

end Sys2Proof.Machine
end

