-- ==== Sys2Proof/Laws/Decode.lean ====
section
/-! SUPPORT. The fields of a built word, and the two lookup tables read backwards. -/

namespace Sys2Proof

/-- The bits of a built word: `opd` lowest, then `arg`, then `opc` (R70). -/
theorem getLsbD_mkWord (o a : Byte) (d : Word64) (i : Nat) :
    (mkWord o a d).getLsbD i =
      if i < 64 then d.getLsbD i else if i < 72 then a.getLsbD (i - 64) else o.getLsbD (i - 72) := by
  have h : (mkWord o a d).getLsbD i = BitVec.getLsbD ((o ++ a : BitVec (8 + 8)) ++ d) i := rfl
  rw [h, BitVec.getLsbD_append, BitVec.getLsbD_append]
  by_cases h1 : i < 64
  · simp [h1]
  · by_cases h2 : i < 72
    · have h3 : i - 64 < 8 := by omega
      simp [h1, h2, h3]
    · have h3 : ¬ i - 64 < 8 := by omega
      have h4 : i - 64 - 8 = i - 72 := by omega
      simp [h1, h2, h3, h4]

@[simp] theorem cmdOpc_mkWord (o a : Byte) (d : Word64) : cmdOpc (mkWord o a d) = o := by
  apply BitVec.eq_of_getLsbD_eq
  intro i hi
  have h : ¬ 72 + i < 64 := by omega
  simp [cmdOpc, getLsbD_mkWord, hi, h]

@[simp] theorem cmdArg_mkWord (o a : Byte) (d : Word64) : cmdArg (mkWord o a d) = a := by
  apply BitVec.eq_of_getLsbD_eq
  intro i hi
  have h : 64 + i < 72 := by omega
  simp [cmdArg, getLsbD_mkWord, hi, h]

@[simp] theorem cmdOpd_mkWord (o a : Byte) (d : Word64) : cmdOpd (mkWord o a d) = d := by
  apply BitVec.eq_of_getLsbD_eq
  intro i hi
  simp [cmdOpd, getLsbD_mkWord, hi]

/-- A word is its three fields (R70). -/
theorem mkWord_fields (w : CmdWord) : mkWord (cmdOpc w) (cmdArg w) (cmdOpd w) = w := by
  apply BitVec.eq_of_getLsbD_eq
  intro i hi
  rw [getLsbD_mkWord]
  simp only [cmdOpc, cmdArg, cmdOpd, BitVec.getLsbD_extractLsb']
  split
  · simp [*]
  · split
    · have h1 : i - 64 < 8 := by omega
      have h2 : 64 + (i - 64) = i := by omega
      simp [h1, h2]
    · have h1 : i - 72 < 8 := by omega
      have h2 : 72 + (i - 72) = i := by omega
      simp [h1, h2]

@[simp] theorem ofCode_code (op : Opcode) : Opcode.ofCode? op.code = some op := by
  cases op <;> decide

@[simp] theorem ofIndex_index (r : CReg) : CReg.ofIndex? r.index = some r := by
  cases r <;> decide

theorem code_of_ofCode {opc : Byte} {op : Opcode} (h : Opcode.ofCode? opc = some op) :
    op.code = opc := by
  simpa using List.find?_some h

theorem index_of_ofIndex {i : Byte} {r : CReg} (h : CReg.ofIndex? i = some r) : r.index = i := by
  simpa using List.find?_some h

/-- R77: everything `decode` checks before it answers an instruction. -/
theorem decode_ok_iff (w : CmdWord) (i : Instr) :
    decode w = .ok i ↔ ∃ op, Opcode.ofCode? (cmdOpc w) = some op ∧
      (op.shape.usesArg = false → cmdArg w = 0) ∧ (op.shape.usesOpd = false → cmdOpd w = 0) ∧
      (cmdArg w).toNat ≤ op.argMax ∧ op.withOperands (cmdArg w) (cmdOpd w) = some i := by
  unfold decode
  cases Opcode.ofCode? (cmdOpc w) with
  | none => simp
  | some op =>
    simp only [Option.some.injEq, exists_eq_left']
    by_cases h1 : op.shape.usesArg = false ∧ cmdArg w ≠ 0
    · rw [if_pos h1]; simp; tauto
    by_cases h2 : op.shape.usesOpd = false ∧ cmdOpd w ≠ 0
    · rw [if_neg h1, if_pos h2]; simp; tauto
    by_cases h3 : op.argMax < (cmdArg w).toNat
    · rw [if_neg h1, if_neg h2, if_pos h3]; simp; omega
    have h1' : op.shape.usesArg = false → cmdArg w = 0 := by tauto
    have h2' : op.shape.usesOpd = false → cmdOpd w = 0 := by tauto
    have h3' : (cmdArg w).toNat ≤ op.argMax := by omega
    simp only [if_neg h1, if_neg h2, if_neg h3]
    cases h4 : op.withOperands (cmdArg w) (cmdOpd w) with
    | none => simp
    | some j => exact ⟨fun h => ⟨h1', h2', h3', by cases h; rfl⟩, fun h => by cases h.2.2.2; rfl⟩

theorem decode_mkWord_ok_iff (op : Opcode) (arg : Byte) (opd : Word64) (i : Instr) :
    decode (mkWord op.code arg opd) = .ok i ↔
      (op.shape.usesArg = false → arg = 0) ∧ (op.shape.usesOpd = false → opd = 0) ∧
      arg.toNat ≤ op.argMax ∧ op.withOperands arg opd = some i := by
  simp [decode_ok_iff]

/-- A word from which no instruction is decoded is rejected by name. -/
theorem decode_error_of_not_ok {w : CmdWord} (h : ∀ i, decode w ≠ .ok i) : ∃ e, decode w = .error e := by
  cases hd : decode w with
  | ok i => exact absurd hd (h i)
  | error e => exact ⟨e, rfl⟩

end Sys2Proof
end

