-- ==== Sys2Proof/Laws/State.lean ====
section
/-! SUPPORT. One lemma per field of `State` and update, so that no later proof unfolds a record update. -/

namespace Sys2Proof.Machine

variable (s : State)

/-! ## The sticky flags -/

@[simp] theorem setSticky_params (e : Err) : (setSticky e s).params = s.params := by cases e <;> rfl
@[simp] theorem setSticky_crcWidth (e : Err) : (setSticky e s).crcWidth = s.crcWidth := by cases e <;> rfl
@[simp] theorem setSticky_crcPoly (e : Err) : (setSticky e s).crcPoly = s.crcPoly := by cases e <;> rfl
@[simp] theorem setSticky_crcReg (e : Err) : (setSticky e s).crcReg = s.crcReg := by cases e <;> rfl
@[simp] theorem setSticky_crcResult (e : Err) : (setSticky e s).crcResult = s.crcResult := by cases e <;> rfl
@[simp] theorem setSticky_eIllegal (e : Err) : (setSticky e s).eIllegal = (s.eIllegal || decide (e = .illegal)) := by cases e <;> simp [setSticky]
@[simp] theorem setSticky_eConfig (e : Err) : (setSticky e s).eConfig = (s.eConfig || decide (e = .config)) := by cases e <;> simp [setSticky]
@[simp] theorem setSticky_eRange (e : Err) : (setSticky e s).eRange = (s.eRange || decide (e = .range)) := by cases e <;> simp [setSticky]
@[simp] theorem setSticky_cmd (e : Err) : (setSticky e s).cmd = s.cmd := by cases e <;> rfl
@[simp] theorem setSticky_out (e : Err) : (setSticky e s).out = s.out := by cases e <;> rfl
@[simp] theorem setSticky_rsp (e : Err) : (setSticky e s).rsp = s.rsp := by cases e <;> rfl

/-! ## OUT -/

@[simp] theorem emit_params (e : List Run) : (emit e s).params = s.params := rfl
@[simp] theorem emit_crcWidth (e : List Run) : (emit e s).crcWidth = s.crcWidth := rfl
@[simp] theorem emit_crcPoly (e : List Run) : (emit e s).crcPoly = s.crcPoly := rfl
@[simp] theorem emit_crcReg (e : List Run) : (emit e s).crcReg = s.crcReg := rfl
@[simp] theorem emit_crcResult (e : List Run) : (emit e s).crcResult = s.crcResult := rfl
@[simp] theorem emit_eIllegal (e : List Run) : (emit e s).eIllegal = s.eIllegal := rfl
@[simp] theorem emit_eConfig (e : List Run) : (emit e s).eConfig = s.eConfig := rfl
@[simp] theorem emit_eRange (e : List Run) : (emit e s).eRange = s.eRange := rfl
@[simp] theorem emit_cmd (e : List Run) : (emit e s).cmd = s.cmd := rfl
@[simp] theorem emit_out (e : List Run) : (emit e s).out = appendRuns s.out e := rfl
@[simp] theorem emit_rsp (e : List Run) : (emit e s).rsp = s.rsp := rfl

/-! ## CRC_REG -/

@[simp] theorem absorb_params (b : List Bit) : (absorb b s).params = s.params := rfl
@[simp] theorem absorb_crcWidth (b : List Bit) : (absorb b s).crcWidth = s.crcWidth := rfl
@[simp] theorem absorb_crcPoly (b : List Bit) : (absorb b s).crcPoly = s.crcPoly := rfl
@[simp] theorem absorb_crcReg (b : List Bit) : (absorb b s).crcReg = 
    BitVec.ofNat 64 (crcShiftin s.crcPoly.toNat s.crcWidth.toNat s.crcReg.toNat b) := rfl
@[simp] theorem absorb_crcResult (b : List Bit) : (absorb b s).crcResult = s.crcResult := rfl
@[simp] theorem absorb_eIllegal (b : List Bit) : (absorb b s).eIllegal = s.eIllegal := rfl
@[simp] theorem absorb_eConfig (b : List Bit) : (absorb b s).eConfig = s.eConfig := rfl
@[simp] theorem absorb_eRange (b : List Bit) : (absorb b s).eRange = s.eRange := rfl
@[simp] theorem absorb_cmd (b : List Bit) : (absorb b s).cmd = s.cmd := rfl
@[simp] theorem absorb_out (b : List Bit) : (absorb b s).out = s.out := rfl
@[simp] theorem absorb_rsp (b : List Bit) : (absorb b s).rsp = s.rsp := rfl

/-! ## Soft reset -/

@[simp] theorem clearRegisters_params : (clearRegisters s).params = s.params := rfl
@[simp] theorem clearRegisters_crcWidth : (clearRegisters s).crcWidth = 0 := rfl
@[simp] theorem clearRegisters_crcPoly : (clearRegisters s).crcPoly = 0 := rfl
@[simp] theorem clearRegisters_crcReg : (clearRegisters s).crcReg = 0 := rfl
@[simp] theorem clearRegisters_crcResult : (clearRegisters s).crcResult = 0 := rfl
@[simp] theorem clearRegisters_eIllegal : (clearRegisters s).eIllegal = false := rfl
@[simp] theorem clearRegisters_eConfig : (clearRegisters s).eConfig = false := rfl
@[simp] theorem clearRegisters_eRange : (clearRegisters s).eRange = false := rfl
@[simp] theorem clearRegisters_cmd : (clearRegisters s).cmd = s.cmd := rfl
@[simp] theorem clearRegisters_out : (clearRegisters s).out = s.out := rfl
@[simp] theorem clearRegisters_rsp : (clearRegisters s).rsp = s.rsp := rfl

/-! ## Hardware reset -/

@[simp] theorem hardwareReset_params : (hardwareReset s).params = s.params := rfl
@[simp] theorem hardwareReset_crcWidth : (hardwareReset s).crcWidth = 0 := rfl
@[simp] theorem hardwareReset_crcPoly : (hardwareReset s).crcPoly = 0 := rfl
@[simp] theorem hardwareReset_crcReg : (hardwareReset s).crcReg = 0 := rfl
@[simp] theorem hardwareReset_crcResult : (hardwareReset s).crcResult = 0 := rfl
@[simp] theorem hardwareReset_eIllegal : (hardwareReset s).eIllegal = false := rfl
@[simp] theorem hardwareReset_eConfig : (hardwareReset s).eConfig = false := rfl
@[simp] theorem hardwareReset_eRange : (hardwareReset s).eRange = false := rfl
@[simp] theorem hardwareReset_cmd : (hardwareReset s).cmd = [] := rfl
@[simp] theorem hardwareReset_out : (hardwareReset s).out = [] := rfl
@[simp] theorem hardwareReset_rsp : (hardwareReset s).rsp = [] := rfl

/-! ## CMD -/

@[simp] theorem hostSend_params (w : CmdWord) : (hostSend w s).params = s.params := rfl
@[simp] theorem hostSend_crcWidth (w : CmdWord) : (hostSend w s).crcWidth = s.crcWidth := rfl
@[simp] theorem hostSend_crcPoly (w : CmdWord) : (hostSend w s).crcPoly = s.crcPoly := rfl
@[simp] theorem hostSend_crcReg (w : CmdWord) : (hostSend w s).crcReg = s.crcReg := rfl
@[simp] theorem hostSend_crcResult (w : CmdWord) : (hostSend w s).crcResult = s.crcResult := rfl
@[simp] theorem hostSend_eIllegal (w : CmdWord) : (hostSend w s).eIllegal = s.eIllegal := rfl
@[simp] theorem hostSend_eConfig (w : CmdWord) : (hostSend w s).eConfig = s.eConfig := rfl
@[simp] theorem hostSend_eRange (w : CmdWord) : (hostSend w s).eRange = s.eRange := rfl
@[simp] theorem hostSend_cmd (w : CmdWord) : (hostSend w s).cmd = s.cmd ++ [w] := rfl
@[simp] theorem hostSend_out (w : CmdWord) : (hostSend w s).out = s.out := rfl
@[simp] theorem hostSend_rsp (w : CmdWord) : (hostSend w s).rsp = s.rsp := rfl

/-! ## The presented word -/

@[simp] theorem withFetchWord_params (nbits w : Nat) : (s.withFetchWord nbits w).params = s.params := rfl
@[simp] theorem withFetchWord_crcWidth (nbits w : Nat) : (s.withFetchWord nbits w).crcWidth = s.crcWidth := rfl
@[simp] theorem withFetchWord_crcPoly (nbits w : Nat) : (s.withFetchWord nbits w).crcPoly = s.crcPoly := rfl
@[simp] theorem withFetchWord_crcReg (nbits w : Nat) : (s.withFetchWord nbits w).crcReg = s.crcReg := rfl
@[simp] theorem withFetchWord_crcResult (nbits w : Nat) : (s.withFetchWord nbits w).crcResult = s.crcResult := rfl
@[simp] theorem withFetchWord_eIllegal (nbits w : Nat) : (s.withFetchWord nbits w).eIllegal = s.eIllegal := rfl
@[simp] theorem withFetchWord_eConfig (nbits w : Nat) : (s.withFetchWord nbits w).eConfig = s.eConfig := rfl
@[simp] theorem withFetchWord_eRange (nbits w : Nat) : (s.withFetchWord nbits w).eRange = s.eRange := rfl
@[simp] theorem withFetchWord_cmd (nbits w : Nat) : (s.withFetchWord nbits w).cmd = tableWord nbits w :: s.cmd := rfl
@[simp] theorem withFetchWord_out (nbits w : Nat) : (s.withFetchWord nbits w).out = s.out := rfl
@[simp] theorem withFetchWord_rsp (nbits w : Nat) : (s.withFetchWord nbits w).rsp = s.rsp := rfl

end Sys2Proof.Machine
end

