-- ==== Sys2Proof/Laws/Ops.lean ====
section
/-! SUPPORT. What each shared operation can do, said once. -/

namespace Sys2Proof.Machine

/-- R74: `respond` adds one response and changes nothing else. -/
theorem respond_eq (c : Code) (v : Word64) (s : State) :
    respond c v s = .next { s with rsp := s.rsp ++ [⟨c, v⟩] } := rfl

theorem respond_next_iff (c : Code) (v : Word64) (s t : State) :
    respond c v s = .next t ↔ t = { s with rsp := s.rsp ++ [⟨c, v⟩] } := by
  simp [respond, eq_comm]

/-- R203: everything `fail` does. -/
theorem fail_eq (e : Err) (s : State) :
    fail e s = .next
      { s with
        eIllegal := s.eIllegal || decide (e = .illegal)
        eConfig := s.eConfig || decide (e = .config)
        eRange := s.eRange || decide (e = .range)
        rsp := s.rsp ++ [⟨.err e, 0⟩] } := by
  cases e <;> simp [fail, respond, setSticky]

@[simp] theorem checked_some (e : Err) (s : State) (o : StepOutcome) :
    checked (some e) s o = fail e s := rfl

@[simp] theorem checked_none (s : State) (o : StepOutcome) : checked none s o = o := rfl

/-- A checked command that answers a next state failed with its first error or did all of its rule. -/
theorem checked_next_cases {err : Option Err} {s t : State} {o : StepOutcome}
    (h : checked err s o = .next t) :
    (∃ e, err = some e ∧ fail e s = .next t) ∨ (err = none ∧ o = .next t) := by
  cases err with
  | none => exact .inr ⟨rfl, h⟩
  | some e => exact .inl ⟨e, rfl, h⟩

theorem fetch_nil (s : State) (h : s.cmd = []) : fetch s = none := by simp [fetch, h]

theorem fetch_cons (s : State) (w : CmdWord) (rest : List CmdWord) (h : s.cmd = w :: rest) :
    fetch s = some (w, { s with cmd := rest }) := by simp [fetch, h]

/-! ## The checks -/

theorem cfgError_none_iff (width : Byte) (poly : Word64) (s : State) :
    cfgError width poly s = none ↔
      width.toNat ≠ 0 ∧ width.toNat ≤ s.params.wMax ∧ poly.toNat < 2 ^ width.toNat := by
  unfold cfgError
  split
  · simp; omega
  · split <;> simp <;> omega

theorem unconfiguredError_none_iff (s : State) : unconfiguredError s = none ↔ s.crcWidth ≠ 0 := by
  simp [unconfiguredError]

theorem pushError_none_iff (n : Byte) (bits : Word64) (s : State) :
    pushError n bits s = none ↔
      n.toNat ≤ 64 ∧ s.crcWidth ≠ 0 ∧ bits.toNat < 2 ^ n.toNat := by
  unfold pushError pushMax
  split
  · simp; omega
  · split
    · simp_all
    · split <;> simp_all

theorem vliError_none_iff (value : Word64) : vliError value = none ↔ value.toNat < 2 ^ 36 := by
  unfold vliError vliMaxSig
  split <;> simp <;> omega

end Sys2Proof.Machine
end

