-- ==== Sys2Proof/Laws/Exec.lean ====
section
/-! SUPPORT. Every command has one shape: the first error its checks find, or a success with a value and an
effect (rule R203). A proof over all commands takes `exec_eq` and needs no meaning unfolded. -/

namespace Sys2Proof.Machine

/-- The error a command's checks find first. -/
def errorOf (i : Instr) (s : State) : Option Err :=
  match i with
  | .nop => none
  | .rdreg _ => none
  | .sreset => none
  | .crcCfg width poly => cfgError width poly s
  | .crcStart => none
  | .crcPush n bits => pushError n bits s
  | .crcPushf n bits => pushError n bits s
  | .crcFinal => unconfiguredError s
  | .crcAppend => unconfiguredError s
  | .vliEnc value => vliError value
  | .riceEnc _ _ => none

/-- The response value of a command that succeeds. -/
def valueOf (i : Instr) (s : State) : Word64 :=
  match i with
  | .nop => 0
  | .rdreg r => readReg r s
  | .sreset => 0
  | .crcCfg _ _ => 0
  | .crcStart => 0
  | .crcPush _ _ => 0
  | .crcPushf _ _ => 0
  | .crcFinal => flush s
  | .crcAppend => flush s
  | .vliEnc _ => 0
  | .riceEnc _ _ => 0

/-- What a command that succeeds emits. -/
def emissionOf (i : Instr) (s : State) : List Run :=
  match i with
  | .nop => []
  | .rdreg _ => []
  | .sreset => []
  | .crcCfg _ _ => []
  | .crcStart => []
  | .crcPush _ _ => []
  | .crcPushf n bits => runsOfBits (pushBits n bits)
  | .crcFinal => []
  | .crcAppend => checksumRuns (flush s) s
  | .vliEnc value => runsOfBits (vliEncode value.toNat)
  | .riceEnc k value => riceRuns value.toNat k.toNat

/-- What a command that succeeds does to the registers. -/
def registersOf (i : Instr) (s : State) : State :=
  match i with
  | .nop => s
  | .rdreg _ => s
  | .sreset => clearRegisters s
  | .crcCfg width poly => { s with crcWidth := width, crcPoly := poly, crcReg := 0, crcResult := 0 }
  | .crcStart => { s with crcReg := 0 }
  | .crcPush n bits => absorb (pushBits n bits) s
  | .crcPushf n bits => absorb (pushBits n bits) s
  | .crcFinal => { s with crcResult := flush s }
  | .crcAppend => { s with crcResult := flush s }
  | .vliEnc _ => s
  | .riceEnc _ _ => s

/-- R203: everything a command does. -/
theorem exec_eq (i : Instr) (s : State) :
    exec i s = checked (errorOf i s) s
      (respond .ok (valueOf i s) (emit (emissionOf i s) (registersOf i s))) := by
  cases i <;> rfl

/-- No command touches CMD, RSP, OUT or the parameter through its register effect. -/
theorem registersOf_streams (i : Instr) (s : State) :
    (registersOf i s).cmd = s.cmd ∧ (registersOf i s).rsp = s.rsp ∧
      (registersOf i s).out = s.out ∧ (registersOf i s).params = s.params := by
  cases i <;> exact ⟨rfl, rfl, rfl, rfl⟩

/-- A command that answers failed with its first error, or succeeded. It always answers. -/
theorem exec_cases (i : Instr) (s : State) :
    (∃ e, errorOf i s = some e ∧ exec i s = fail e s) ∨
    (errorOf i s = none ∧ exec i s =
      .next { emit (emissionOf i s) (registersOf i s) with rsp := s.rsp ++ [⟨.ok, valueOf i s⟩] }) := by
  rw [exec_eq]
  cases h : errorOf i s with
  | some e => exact .inl ⟨e, rfl, rfl⟩
  | none =>
    refine .inr ⟨rfl, ?_⟩
    rw [checked_none, respond_eq, emit_rsp, (registersOf_streams i s).2.1]

end Sys2Proof.Machine
end

