-- ==== Sys2Proof/Laws/Step.lean ====
section
/-! SUPPORT. What a step can do: idle, run the decoded command, or fail an illegal word. -/

namespace Sys2Proof.Machine

theorem step_idle {s : State} (h : s.cmd = []) : step s = .next s := by
  rw [step, fetch_nil s h]; rfl

theorem step_legal {s : State} {w : CmdWord} {rest : List CmdWord} {i : Instr}
    (h : s.cmd = w :: rest) (hd : decode w = .ok i) : step s = exec i { s with cmd := rest } := by
  rw [step, fetch_cons s w rest h]; simp only [hd]

theorem step_illegal {s : State} {w : CmdWord} {rest : List CmdWord} {e : DecodeError}
    (h : s.cmd = w :: rest) (hd : decode w = .error e) :
    step s = fail .illegal { s with cmd := rest } := by
  rw [step, fetch_cons s w rest h]; simp only [hd, illegalCommand]

/-- Every way a step answers. -/
theorem step_cases (s : State) :
    (s.cmd = [] ∧ step s = .next s) ∨
    (∃ w rest i, s.cmd = w :: rest ∧ decode w = .ok i ∧ step s = exec i { s with cmd := rest }) ∨
    (∃ w rest e, s.cmd = w :: rest ∧ decode w = .error e ∧
      step s = fail .illegal { s with cmd := rest }) := by
  cases h : s.cmd with
  | nil => exact .inl ⟨rfl, step_idle h⟩
  | cons w rest =>
    cases hd : decode w with
    | ok i => exact .inr (.inl ⟨w, rest, i, rfl, hd, step_legal h hd⟩)
    | error e => exact .inr (.inr ⟨w, rest, e, rfl, hd, step_illegal h hd⟩)

/-- The word the host presents is the one the next step fetches. -/
theorem fetch_withFetchWord (s : State) (nbits w : Nat) :
    fetch (s.withFetchWord nbits w) = some (tableWord nbits w, s) := rfl

end Sys2Proof.Machine
end

