-- ==== Sys2Proof/Laws/Inv.lean ====
section
/-! SUPPORT. What the invariants of rule R38 give the shared operations of the CRC unit: nothing is lost
when an exact natural number is stored in a 64-bit register. -/

namespace Sys2Proof.Machine

theorem State.Inv.width_le {s : State} (h : s.Inv) : s.crcWidth.toNat ≤ 64 :=
  h.1.trans s.params.atMost

theorem width_pos {s : State} (hw : s.crcWidth ≠ 0) : 1 ≤ s.crcWidth.toNat := by
  have : s.crcWidth.toNat ≠ 0 := fun h0 => hw (BitVec.eq_of_toNat_eq (by simpa using h0))
  omega

/-- A value below `2^w` is stored whole, for every width the invariant allows. -/
theorem toNat_ofNat_of_lt {w v : Nat} (hw : w ≤ 64) (hv : v < 2 ^ w) : (BitVec.ofNat 64 v).toNat = v := by
  have : v < 2 ^ 64 := hv.trans_le (Nat.pow_le_pow_right (by decide) hw)
  rw [BitVec.toNat_ofNat, Nat.mod_eq_of_lt this]

/-- Shifting a sequence into the state's register stays below `2^CRC_WIDTH`. -/
theorem State.Inv.shiftin_lt {s : State} (h : s.Inv) (hw : s.crcWidth ≠ 0) (b : List Bit) :
    crcShiftin s.crcPoly.toNat s.crcWidth.toNat s.crcReg.toNat b < 2 ^ s.crcWidth.toNat :=
  crcShiftin_lt (width_pos hw) h.2.1 h.2.2.1 b

/-- R112: what `absorb` leaves in `CRC_REG`. -/
theorem absorb_crcReg_toNat {s : State} (h : s.Inv) (hw : s.crcWidth ≠ 0) (b : List Bit) :
    (absorb b s).crcReg.toNat =
      crcShiftin s.crcPoly.toNat s.crcWidth.toNat s.crcReg.toNat b := by
  rw [absorb_crcReg, toNat_ofNat_of_lt h.width_le (h.shiftin_lt hw b)]

/-- R115: the checksum `flush` computes. -/
theorem flush_toNat {s : State} (h : s.Inv) (hw : s.crcWidth ≠ 0) :
    (flush s).toNat =
      crcShiftin s.crcPoly.toNat s.crcWidth.toNat s.crcReg.toNat
        (List.replicate s.crcWidth.toNat false) := by
  rw [flush, toNat_ofNat_of_lt h.width_le (h.shiftin_lt hw _)]

theorem flush_lt {s : State} (h : s.Inv) (hw : s.crcWidth ≠ 0) :
    (flush s).toNat < 2 ^ s.crcWidth.toNat := by
  rw [flush_toNat h hw]; exact h.shiftin_lt hw _

/-! ## OUT as bits -/

@[simp] theorem outBits_emit (e : List Run) (s : State) :
    (emit e s).outBits = s.outBits ++ runsBits e := by
  simp [State.outBits]

end Sys2Proof.Machine
end

