-- ==== Sys2Proof/Laws/PerInstr.lean ====
section
/-! SUPPORT. The family `EncodedFields`: the three fields of every instruction's word, and the zero that
stands in a field its shape does not use (rules R70, R71). -/

namespace Sys2Proof.Laws

def EncodedFields.Statement (i : Instr) : Prop :=
  cmdOpc (encode i) = i.opcode.code ∧
  cmdArg (encode i) = i.arg ∧
  cmdOpd (encode i) = i.opd ∧
  (i.opcode.shape.usesArg = false → i.arg = 0) ∧
  (i.opcode.shape.usesOpd = false → i.opd = 0)

namespace EncodedFields

theorem nop : Statement .nop := by
  simp [Statement, encode, Instr.arg, Instr.opd]

theorem rdreg (reg : CReg) : Statement (.rdreg reg) := by
  simp [Statement, encode, Instr.opcode, Instr.opd, Opcode.shape, Shape.usesArg]

theorem sreset : Statement .sreset := by
  simp [Statement, encode, Instr.arg, Instr.opd]

theorem crcCfg (width : Byte) (poly : Word64) : Statement (.crcCfg width poly) := by
  simp [Statement, encode, Instr.opcode, Opcode.shape, Shape.usesArg, Shape.usesOpd]

theorem crcStart : Statement .crcStart := by
  simp [Statement, encode, Instr.arg, Instr.opd]

theorem crcPush (n : Byte) (bits : Word64) : Statement (.crcPush n bits) := by
  simp [Statement, encode, Instr.opcode, Opcode.shape, Shape.usesArg, Shape.usesOpd]

theorem crcPushf (n : Byte) (bits : Word64) : Statement (.crcPushf n bits) := by
  simp [Statement, encode, Instr.opcode, Opcode.shape, Shape.usesArg, Shape.usesOpd]

theorem crcFinal : Statement .crcFinal := by
  simp [Statement, encode, Instr.arg, Instr.opd]

theorem crcAppend : Statement .crcAppend := by
  simp [Statement, encode, Instr.arg, Instr.opd]

theorem vliEnc (value : Word64) : Statement (.vliEnc value) := by
  simp [Statement, encode, Instr.opcode, Instr.arg, Opcode.shape, Shape.usesOpd]

theorem riceEnc (k : Byte) (value : Word64) : Statement (.riceEnc k value) := by
  simp [Statement, encode, Instr.opcode, Opcode.shape, Shape.usesArg, Shape.usesOpd]

end EncodedFields

end Sys2Proof.Laws
end

