-- ==== Sys2Proof/Tests/Slice0.lean ====
section
/-! SUPPORT. Tests: expected values are the spec's own (spec/95_test_vectors.md, by the number named, or the
example of the rule named). Then, for every statement with hypotheses, a concrete case that meets them. -/

namespace Sys2Proof.Tests

open Sys2Proof.Machine Sys2Proof.Claims

/-! ## Helpers -/

/-- 95 section 2.4, "cfg8": the state after `crc.cfg 8, 0x07` and `crc.start` from reset (without its
responses). -/
def cfg8 : State := { State.reset with crcWidth := 8, crcPoly := 0x07 }

/-- cfg8, then `crc.push 8, 0xC1`. -/
def cfg8C1 : State := { cfg8 with crcReg := 0xC1 }

/-- The state of an outcome that is a next state. -/
def nextState : StepOutcome → Option State
  | .next s => some s
  | .fault _ => none
  | .refused _ => none

/-- What one command word does to a state: the response word, the emitted bits and `STATUS` after. -/
def shows (s : State) (w : Nat) : Option (List RspWord × List Bit × Word64) :=
  (nextState (step (s.withFetchWord 80 w))).map fun t =>
    (t.rsp.map Response.word, t.outBits, statusWord t)

/-- A register after one command word. -/
def regAfter (s : State) (w : Nat) (r : CReg) : Option Word64 :=
  (nextState (step (s.withFetchWord 80 w))).map (readReg r)

/-- A bit sequence as the spec writes it. -/
def bits (n v : Nat) : List Bit := bitsN n v

/-! ## WellFormed: each check refuses an ill-formed term -/

theorem test_wf_push_65 : Instr.wf (.crcPush 65 0) = false := by decide
theorem test_wf_pushf_65 : Instr.wf (.crcPushf 65 0) = false := by decide
theorem test_wf_push_64 : Instr.wf (.crcPush 64 0) = true := by decide
theorem test_wf_pushf_64 : Instr.wf (.crcPushf 64 0) = true := by decide

/-! ## Decoding: words written out from the rows of R76 -/

theorem test_decode_nop : decodeTableWord 80 0x00000000000000000000 = some .nop := by decide
theorem test_decode_rdreg : decodeTableWord 80 0x01050000000000000000 = some (.rdreg .caps) := by decide
theorem test_decode_sreset : decodeTableWord 80 0x02000000000000000000 = some .sreset := by decide
theorem test_decode_crc_cfg :
    decodeTableWord 80 0x10100000000000008005 = some (.crcCfg 16 0x8005) := by decide
theorem test_decode_crc_start : decodeTableWord 80 0x11000000000000000000 = some .crcStart := by decide
theorem test_decode_crc_push :
    decodeTableWord 80 0x120800000000000000C1 = some (.crcPush 8 0xC1) := by decide
theorem test_decode_crc_pushf :
    decodeTableWord 80 0x1310000000000000FFF8 = some (.crcPushf 16 0xFFF8) := by decide
theorem test_decode_crc_final : decodeTableWord 80 0x14000000000000000000 = some .crcFinal := by decide
theorem test_decode_crc_append :
    decodeTableWord 80 0x15000000000000000000 = some .crcAppend := by decide
theorem test_decode_vli_enc :
    decodeTableWord 80 0x2000000000000000AC44 = some (.vliEnc 44100) := by decide
theorem test_decode_rice_enc :
    decodeTableWord 80 0x30020000000000000009 = some (.riceEnc 2 9) := by decide

theorem test_encode_rice_enc : encode (.riceEnc 2 9) = 0x30020000000000000009 := by decide
theorem test_encode_rdreg : encode (.rdreg .caps) = 0x01050000000000000000 := by decide

/-- E1. -/
theorem test_decode_undefined_opcode :
    decode 0x03000000000000000000 = .error .undefinedOpcode := by decide
/-- E9. -/
theorem test_decode_unused_arg :
    decode 0x20010000000000000005 = .error .unusedArgNonzero := by decide
/-- E7. -/
theorem test_decode_unused_opd :
    decode 0x11000000000000000001 = .error .unusedOpdNonzero := by decide
/-- E10. -/
theorem test_decode_rdreg_6 : decode 0x01060000000000000000 = .error .argOutOfRange := by decide
/-- E13. -/
theorem test_decode_push_65 : decode 0x12410000000000000000 = .error .argOutOfRange := by decide

/-! ## Single steps -/

/-- E1. -/
theorem test_step_undefined_opcode :
    shows cfg8 0x03000000000000000000 = some ([0x010000000000000000], [], 0x101) := by decide
/-- E13. -/
theorem test_step_push_65 :
    shows cfg8 0x12410000000000000000 = some ([0x010000000000000000], [], 0x101) := by decide
theorem test_step_nop : shows cfg8 0 = some ([0], [], 0x100) := by decide
/-- E36. -/
theorem test_step_rdreg_caps :
    shows State.reset 0x01050000000000000000 = some ([0x000000000000402440], [], 0) := by decide
/-- P4 step 11: the flags before the command and `CFGD`. -/
theorem test_step_rdreg_status :
    shows { cfg8 with eIllegal := true, eConfig := true, eRange := true } 0x01000000000000000000 =
      some ([0x000000000000000107], [], 0x107) := by decide
/-- P4 step 12. -/
theorem test_step_sreset :
    shows { cfg8C1 with eRange := true } 0x02000000000000000000 = some ([0], [], 0) := by decide
/-- E12: nothing reset. -/
theorem test_step_sreset_arg_1 :
    regAfter cfg8C1 0x02010000000000000000 .crcReg = some 0xC1 := by decide
/-- E16. -/
theorem test_step_crc_cfg_65 :
    shows State.reset 0x10410000000000000000 = some ([0x020000000000000000], [], 0x002) := by decide
/-- E32. -/
theorem test_step_crc_cfg_too_wide :
    shows cfg8C1 0x100800000000000001FF = some ([0x030000000000000000], [], 0x104) := by decide
/-- E19. -/
theorem test_step_crc_cfg_64 :
    regAfter State.reset 0x1040FFFFFFFFFFFFFFFF .crcPoly = some 0xFFFFFFFFFFFFFFFF := by decide
/-- E20, E33. -/
theorem test_step_crc_start :
    shows State.reset 0x11000000000000000000 = some ([0], [], 0) ∧
    regAfter cfg8C1 0x11000000000000000000 .crcReg = some 0 := by decide
/-- E26. -/
theorem test_step_crc_push_64 :
    regAfter cfg8 0x1240FFFFFFFFFFFFFFFF .crcReg = some 0xF3 := by decide +kernel
/-- E23. -/
theorem test_step_crc_push_0_1 :
    shows cfg8 0x12000000000000000001 = some ([0x030000000000000000], [], 0x104) := by decide
/-- E27. -/
theorem test_step_crc_pushf :
    shows cfg8 0x13030000000000000005 = some ([0], [true, false, true], 0x100) ∧
    regAfter cfg8 0x13030000000000000005 .crcReg = some 0x05 := by decide
/-- E29: `CRC_REG` kept, `CRC_RESULT` written. -/
theorem test_step_crc_final :
    shows cfg8C1 0x14000000000000000000 = some ([0x000000000000000049], [], 0x100) ∧
    regAfter cfg8C1 0x14000000000000000000 .crcReg = some 0xC1 := by decide
/-- E21. -/
theorem test_step_crc_final_unconfigured :
    shows State.reset 0x14000000000000000000 = some ([0x020000000000000000], [], 0x002) := by decide
/-- E30. -/
theorem test_step_crc_append :
    shows cfg8C1 0x15000000000000000000 =
      some ([0x000000000000000049], bits 8 0b01001001, 0x100) := by decide
/-- L20. -/
theorem test_step_vli_enc :
    shows cfg8 0x2000000000000000AC44 = some ([0], bits 24 0xEAB184, 0x100) := by decide
/-- E37. -/
theorem test_step_vli_enc_range :
    shows State.reset 0x20000000001000000000 = some ([0x030000000000000000], [], 0x004) := by decide
/-- C5. -/
theorem test_step_rice_enc :
    shows State.reset 0x30020000000000000009 = some ([0], bits 5 0b11001, 0) := by decide
/-- C19: the longest emission of the block is two runs. -/
theorem test_step_rice_enc_longest :
    (nextState (step (State.reset.withFetchWord 80 0x3000FFFFFFFFFFFFFFFF))).map State.out =
      some [⟨true, 2 ^ 64 - 1⟩, ⟨false, 1⟩] := by decide

/-! ## Reference functions -/

/-- V8, V5, V20. -/
theorem test_crc_compute :
    crcCompute 0x07 8 (bits 8 0xC1) = 0x49 ∧ crcCompute 0x07 8 [true, true] = 0x09 ∧
    crcCompute 0x8005 16 (bits 19 0b0011000100110010101) = 0x3560 := by decide
/-- L4, L17, L23, L18. -/
theorem test_vli_encode :
    vliEncode 0x80 = bits 16 0xC280 ∧ vliEncode 0xFFFFFFFFF = bits 56 0xFEBFBFBFBFBFBF ∧
    vliEncode 0xABCDEF123 = bits 56 0xFEAABCB7AF84A3 ∧ vliRow 0x1000000000 = none := by decide
/-- M2, M6, M8, M9, M11. -/
theorem test_vli_decode :
    vliDecode (bits 24 0xC280FF) = .ok 0x80 16 ∧ vliDecode (bits 16 0xFF80) = .invalid .badLead ∧
    vliDecode (bits 16 0xC2C0) = .invalid .badContinuation ∧
    vliDecode (bits 16 0xE0A0) = .invalid .truncated ∧
    vliDecode (bits 16 0xC080) = .invalid .overlong := by decide
/-- C8, C9. -/
theorem test_rice_encode :
    riceEncode 255 4 = bits 20 0b11111111111111101111 ∧ riceEncode 5 8 = bits 9 0b101 := by decide
/-- 95 section 2.3, `rice_decode`. -/
theorem test_rice_decode :
    riceDecode (bits 5 0b11001) 2 = .ok 9 5 ∧ riceDecode (bits 5 0b11001) 1 = .ok 4 4 ∧
    riceDecode (bits 3 0b110) 2 = .invalid .truncated := by decide

/-! ## Assembler (R85 to R88, and the words of programs P4 and P5) -/

theorem test_assemble_cfg16 :
    assembleLine "crc.cfg16 # D0's 16-bit profile".toList = .ok (some 0x10100000000000008005) := by
  decide
theorem test_assemble_pushf :
    assembleLine "crc.pushf 3, 0b101".toList = .ok (some 0x13030000000000000005) := by decide
theorem test_assemble_rdreg :
    assembleLine "rdreg CRC_REG".toList = .ok (some 0x01030000000000000000) := by decide
theorem test_assemble_unfit :
    assembleLine "rice.enc 256, 0".toList = .error .doesNotFit := by decide

/-! ## Witnesses: the hypotheses of each statement can be met -/

/-- A state whose next word is the given one, with another waiting. -/
def waiting (s : State) (w : CmdWord) : State := { s with cmd := [w, 0] }

/-- The next state of a step, as a state. -/
def stepState (s : State) : State := (nextState (step s)).getD s

theorem witness_DecodeEncodeIsIdentity : Instr.wf (.crcPush 64 0xFFFFFFFFFFFFFFFF) = true := by decide
theorem witness_LegalWordHasOneInstruction :
    decode 0x12400000000000000000 = .ok (.crcPush 64 0) := by decide
theorem witness_IllegalWordsExactly :
    IllegalWord 0x31000000000000000000 ∧ IllegalWord 0x00010000000000000000 ∧
    IllegalWord 0x14000000000000000001 ∧ IllegalWord 0x01060000000000000000 ∧
    IllegalWord 0x13410000000000000000 ∧ ¬ IllegalWord 0x01050000000000000000 ∧
    ¬ IllegalWord 0x13400000000000000000 :=
  ⟨by decide, by decide, by decide, by decide, by decide, by decide, by decide⟩
theorem witness_StepRunsDecodedCommand :
    (waiting cfg8 0x11000000000000000000).cmd = [0x11000000000000000000, 0] ∧
    decode 0x11000000000000000000 = .ok .crcStart := by decide
theorem witness_IdleBlockHoldsState : State.reset.cmd = [] := by decide
theorem witness_StepAnswersOneResponse :
    (waiting cfg8 0xFFFFFFFFFFFFFFFFFFFF).cmd = 0xFFFFFFFFFFFFFFFFFFFF :: [0] := by decide
theorem witness_SendingDoesNotDisturb :
    (waiting cfg8 0x15000000000000000000).cmd ≠ [] ∧
    step (waiting cfg8 0x15000000000000000000) =
      .next (stepState (waiting cfg8 0x15000000000000000000)) := ⟨by decide, rfl⟩
theorem witness_BitConversionsAreInverse : 5 < 2 ^ 3 ∧ 0 < 2 ^ 0 ∧ 2 < 3 ∧ sig 7 ≤ 3 := by decide
theorem witness_NopOnlyResponds : ¬ ((1 : Byte) = 0 ∧ (0 : Word64) = 0) := by decide
theorem witness_RdregReturnsRegister : 5 < (6 : Byte).toNat ∧ (1 : Word64) ≠ 0 := by decide
theorem witness_SresetClearsRegistersKeepsStreams : ¬ ((0 : Byte) = 0 ∧ (1 : Word64) = 0) := by decide
theorem witness_ResetsSetEveryRegister :
    exec .sreset cfg8C1 = .next (afterSuccess 0 (clearRegisters cfg8C1)) ∧ CReg.status ≠ .caps :=
  ⟨rfl, by decide⟩
theorem witness_CrcCfgLoadsSpec_config :
    (0 : Byte) = 0 ∧ State.reset.params.wMax < (65 : Byte).toNat := by decide
theorem witness_CrcCfgLoadsSpec_range :
    (1 : Byte) ≠ 0 ∧ (1 : Byte).toNat ≤ State.reset.params.wMax ∧
    2 ^ (1 : Byte).toNat ≤ (2 : Word64).toNat := by decide
theorem witness_CrcCfgLoadsSpec_ok :
    (64 : Byte) ≠ 0 ∧ (64 : Byte).toNat ≤ State.reset.params.wMax ∧
    (0xFFFFFFFFFFFFFFFF : Word64).toNat < 2 ^ (64 : Byte).toNat := by decide
theorem witness_CrcStartZeroesRegister : ¬ ((1 : Byte) = 0 ∧ (1 : Word64) = 0) := by decide
theorem witness_CrcDataNeedsConfiguration :
    State.reset.crcWidth = 0 ∧ (64 : Byte).toNat ≤ 64 := by decide
theorem witness_CrcPushAbsorbsBits_illegal : 64 < (65 : Byte).toNat := by decide
theorem witness_CrcPushAbsorbsBits_config :
    (0 : Byte).toNat ≤ 64 ∧ State.reset.crcWidth = 0 := by decide
theorem witness_CrcPushAbsorbsBits_range :
    (0 : Byte).toNat ≤ 64 ∧ cfg8.crcWidth ≠ 0 ∧ 2 ^ (0 : Byte).toNat ≤ (1 : Word64).toNat := by decide
theorem witness_CrcPushAbsorbsBits_ok :
    cfg8C1.Inv ∧ (64 : Byte).toNat ≤ 64 ∧ cfg8C1.crcWidth ≠ 0 ∧
    (0xFFFFFFFFFFFFFFFF : Word64).toNat < 2 ^ (64 : Byte).toNat := by decide
theorem witness_CrcPushAbsorbsBits_join :
    cfg8C1.Inv ∧ cfg8C1.crcWidth ≠ 0 ∧ (64 : Byte).toNat = (32 : Byte).toNat + (32 : Byte).toNat ∧
    (64 : Byte).toNat ≤ 64 ∧ (1 : Word64).toNat < 2 ^ (32 : Byte).toNat ∧
    (2 : Word64).toNat < 2 ^ (32 : Byte).toNat ∧
    (0x100000002 : Word64).toNat = (1 : Word64).toNat * 2 ^ (32 : Byte).toNat + (2 : Word64).toNat := by
  decide
theorem witness_CrcPushfAbsorbsAndEmits_illegal : 64 < (255 : Byte).toNat := by decide
theorem witness_CrcPushfAbsorbsAndEmits_config :
    (64 : Byte).toNat ≤ 64 ∧ State.reset.crcWidth = 0 := by decide
theorem witness_CrcPushfAbsorbsAndEmits_range :
    (1 : Byte).toNat ≤ 64 ∧ cfg8.crcWidth ≠ 0 ∧ 2 ^ (1 : Byte).toNat ≤ (2 : Word64).toNat := by decide
theorem witness_CrcPushfAbsorbsAndEmits_ok :
    cfg8C1.Inv ∧ (3 : Byte).toNat ≤ 64 ∧ cfg8C1.crcWidth ≠ 0 ∧
    (5 : Word64).toNat < 2 ^ (3 : Byte).toNat := by decide
theorem witness_CrcFinalReturnsFlush :
    State.reset.crcWidth = 0 ∧ cfg8C1.Inv ∧ cfg8C1.crcWidth ≠ 0 ∧
    ¬ ((2 : Byte) = 0 ∧ (0 : Word64) = 0) := by decide
theorem witness_CrcAppendEmitsFlush :
    State.reset.crcWidth = 0 ∧ cfg8C1.Inv ∧ cfg8C1.crcWidth ≠ 0 ∧
    ¬ ((0 : Byte) = 0 ∧ (7 : Word64) = 0) := by decide
theorem witness_FinalAfterAppendRepeats : cfg8C1.Inv ∧ cfg8C1.crcWidth ≠ 0 := by decide
theorem witness_VliEncEmitsCode :
    (1 : Byte) ≠ 0 ∧ 2 ^ 36 ≤ (0x1000000000 : Word64).toNat ∧
    (0xFFFFFFFFF : Word64).toNat < 2 ^ 36 := by decide
theorem witness_EncodersAreStateless :
    (Instr.vliEnc 5 = .vliEnc 5 ∨ Instr.vliEnc 5 = .riceEnc 0 5) ∧
    (Instr.riceEnc 0 5 = .vliEnc 5 ∨ Instr.riceEnc 0 5 = .riceEnc 0 5) := by decide
theorem witness_CommandsFailByFirstError :
    firstError (.crcPush 65 0) State.reset = some .illegal ∧
    firstError (.crcPush 4 0x1F) State.reset = some .config ∧
    firstError (.crcPush 4 0x1F) cfg8 = some .range ∧
    firstError (.crcPush 4 0xF) cfg8 = none ∧ Instr.crcPush 4 0xF ≠ .sreset := by decide
theorem witness_StickyFlagsFollowFailures :
    (waiting cfg8 0x03000000000000000000).cmd = 0x03000000000000000000 :: [0] ∧
    step (waiting cfg8 0x03000000000000000000) =
      .next (stepState (waiting cfg8 0x03000000000000000000)) := ⟨by decide, rfl⟩
theorem witness_FlagsAgreeWithResponses :
    (stepState (State.reset.withFetchWord 80 0)).allOk = true ∧
    (stepState (State.reset.withFetchWord 80 0)).NoError ∧ decode 0 ≠ .ok .sreset := by decide
theorem witness_OnlyFourCommandsEmit :
    (waiting cfg8C1 0x15000000000000000000).cmd = 0x15000000000000000000 :: [0] ∧
    step (waiting cfg8C1 0x15000000000000000000) =
      .next (stepState (waiting cfg8C1 0x15000000000000000000)) ∧
    (stepState (waiting cfg8C1 0x15000000000000000000)).outBits ≠
      (waiting cfg8C1 0x15000000000000000000).outBits := ⟨by decide, rfl, by decide⟩
theorem witness_CrcRegisterWriters :
    (step (waiting cfg8 0x10100000000000008005) =
      .next (stepState (waiting cfg8 0x10100000000000008005)) ∧
      (stepState (waiting cfg8 0x10100000000000008005)).crcWidth ≠ cfg8.crcWidth) ∧
    (step (waiting cfg8 0x12010000000000000001) =
      .next (stepState (waiting cfg8 0x12010000000000000001)) ∧
      (stepState (waiting cfg8 0x12010000000000000001)).crcReg ≠ cfg8.crcReg) ∧
    (step (waiting cfg8C1 0x14000000000000000000) =
      .next (stepState (waiting cfg8C1 0x14000000000000000000)) ∧
      (stepState (waiting cfg8C1 0x14000000000000000000)).crcResult ≠ cfg8C1.crcResult) :=
  ⟨⟨rfl, by decide⟩, ⟨rfl, by decide⟩, ⟨rfl, by decide⟩⟩
theorem witness_InvariantKeptByEveryStep :
    (waiting cfg8C1 0x1240FFFFFFFFFFFFFFFF).Inv ∧
    step (waiting cfg8C1 0x1240FFFFFFFFFFFFFFFF) =
      .next (stepState (waiting cfg8C1 0x1240FFFFFFFFFFFFFFFF)) ∧
    State.reset.Inv ∧ State.reset.crcWidth = 0 := ⟨by decide, rfl, by decide, by decide⟩
theorem witness_OutStaysCanonical :
    ({ waiting cfg8C1 0x15000000000000000000 with out := [⟨true, 3⟩, ⟨false, 1⟩] }).OutCanonical ∧
    step (waiting cfg8C1 0x15000000000000000000) =
      .next (stepState (waiting cfg8C1 0x15000000000000000000)) := ⟨by decide, rfl⟩
theorem witness_CanonicalRunsAreUnique :
    canonical [⟨true, 3⟩, ⟨false, 1⟩] = true ∧
    runsBits [⟨true, 3⟩, ⟨false, 1⟩] = runsBits [⟨true, 3⟩, ⟨false, 1⟩] := by decide
theorem witness_CrcLaws : 1 ≤ 8 ∧ 0x07 < 2 ^ 8 ∧ 0xC1 < 2 ^ 8 ∧ 1 ≤ 1 ∧ 1 < 2 ^ 1 := by decide
theorem witness_CrcStreaming :
    cfg8.Inv ∧ cfg8.crcWidth ≠ 0 ∧ cfg8.crcReg = 0 ∧
    ∀ w ∈ [(0x1310000000000000FFF8 : CmdWord), 0x15000000000000000000, 0x10000000000000000007],
      KeepsChecksum cfg8.params w := by
  refine ⟨by decide, by decide, by decide, ?_⟩
  intro w hw
  simp only [List.mem_cons, List.not_mem_nil, or_false] at hw
  rcases hw with rfl | rfl | rfl
  · exact ⟨by decide, by decide, fun a b h =>
      absurd h (by rw [show decode 0x1310000000000000FFF8 = .ok (.crcPushf 16 0xFFF8) by decide]; simp)⟩
  · exact ⟨by decide, by decide, fun a b h =>
      absurd h (by rw [show decode 0x15000000000000000000 = .ok .crcAppend by decide]; simp)⟩
  · refine ⟨by decide, by decide, fun a b h => ?_⟩
    rw [show decode 0x10000000000000000007 = .ok (.crcCfg 0 7) by decide] at h
    cases h; exact .inl rfl
theorem witness_CrcRegisterHoldsAbsorbedBits :
    (waiting cfg8C1 0x1208000000000000001F).Inv ∧
    HoldsBits (waiting cfg8C1 0x1208000000000000001F) (bitsN 8 0xC1) ∧
    step (waiting cfg8C1 0x1208000000000000001F) =
      .next (stepState (waiting cfg8C1 0x1208000000000000001F)) ∧
    (waiting cfg8C1 0x1208000000000000001F).cmd = 0x1208000000000000001F :: [0] ∧
    cfg8C1.cmd = [] ∧ HoldsBits cfg8C1 (bitsN 8 0xC1) ∧ step cfg8C1 = .next cfg8C1 :=
  ⟨by decide, by unfold HoldsBits; decide, rfl, by decide, by decide, by unfold HoldsBits; decide, rfl⟩
/-- R118's cases of `bitsAfter`: a push, a failed push, `CRC_START`, `CRC_FINAL`. -/
theorem test_bitsAfter :
    bitsAfter cfg8C1 [true] 0x12020000000000000001 = [true, false, true] ∧
    bitsAfter cfg8C1 [true] 0x12020000000000000004 = [true] ∧
    bitsAfter cfg8C1 [true] 0x11000000000000000000 = [] ∧
    bitsAfter cfg8C1 [true] 0x14000000000000000000 = [true] := by decide
theorem witness_CrcRecipes :
    (16 : Byte) ≠ 0 ∧ (16 : Byte).toNat ≤ State.reset.params.wMax ∧
    (0x8005 : Word64).toNat < 2 ^ (16 : Byte).toNat ∧
    ∀ d ∈ [((8 : Byte), (0x31 : Word64)), (64, 0xFFFFFFFFFFFFFFFF), (0, 0)], GoodPush d :=
  ⟨by decide, by decide, by decide, by simp [GoodPush]⟩
theorem witness_CrcIntegrity :
    cfg8C1.Inv ∧ cfg8C1.crcWidth ≠ 0 ∧ ∀ d ∈ [((16 : Byte), (0xFFF8 : Word64))], GoodPush d :=
  ⟨by decide, by decide, by simp [GoodPush]⟩
theorem witness_CrcIsLinear :
    1 ≤ 8 ∧ 0x07 < 2 ^ 8 ∧ [true, false].length = [true, true].length := by decide
theorem witness_VliRange : 0 < 2 ^ 36 ∧ 0xFFFFFFFFF < 2 ^ 36 ∧ 0x7F < 0x80 ∧ (3 : Nat) ≠ 4 := by norm_num
theorem witness_VliByteValues :
    vliRow 0x7F = some 1 ∧ vliRow 0xFFFFFFFFF = some 7 ∧ 2 ≤ 7 ∧ 1 ≤ 6 ∧ 6 ≤ 7 - 1 := by decide
theorem witness_VliIsPrefixFree :
    (∀ v ∈ [0x7F, 0x80], v < 2 ^ 36) ∧
    [0x7F, 0x80].flatMap vliEncode = [0x7F, 0x80].flatMap vliEncode := by
  refine ⟨?_, rfl⟩; simp
theorem witness_RiceLaws : (7 < 2 ^ 3 ∧ sig 7 ≤ 3) ∧ (3 : Nat) ≠ 4 ∧ 3 ≤ 4 := by decide

end Sys2Proof.Tests
end

section
/-! PROOFS of the statements of `00_scope.md`: the conversions of rule R10 and the step of a legal word. -/

namespace Sys2Proof.Machine

/-! ## `bitsN`, `val` and `sig` (R10) -/

theorem getElem?_bitsN {n v i : Nat} (hi : i < n) :
    (bitsN n v)[i]? = some (v.testBit (n - 1 - i)) := by
  induction n generalizing i with
  | zero => omega
  | succ n ih =>
    cases i with
    | zero => simp [bitsN]
    | succ i =>
      have hpos : n - (i + 1) = n - 1 - i := by omega
      simpa [bitsN, hpos] using ih (by omega : i < n)

theorem testBit_eq_decide_shiftRight (v i : Nat) : v.testBit i = decide (v >>> i % 2 = 1) := by
  rw [Nat.testBit_eq_decide_div_mod_eq, Nat.shiftRight_eq_div_pow]

/-- A sequence's first bit outweighs all that follow it (`val_lt`), so a value fixes the bits one by one. -/
theorem eq_of_val_eq {s t : List Bit} (hlen : s.length = t.length) (hval : val s = val t) : s = t := by
  induction s generalizing t with
  | nil => exact (List.eq_nil_of_length_eq_zero hlen.symm).symm
  | cons b s ih =>
    cases t with
    | nil => cases hlen
    | cons c t =>
      have hlen' : s.length = t.length := Nat.succ.inj hlen
      have hs := val_lt s
      have ht := val_lt t
      rw [hlen'] at hs
      simp only [val, hlen'] at hval
      have hhead : b = c ∧ val s = val t := by cases b <;> cases c <;> simp at hval ⊢ <;> omega
      rw [hhead.1, ih hlen' hhead.2]

@[simp] theorem bitsN_val (s : List Bit) : bitsN s.length (val s) = s :=
  eq_of_val_eq (bitsN_length _ _) (by rw [val_bitsN, Nat.mod_eq_of_lt (val_lt s)])

theorem sig_le_iff (v n : Nat) : sig v ≤ n ↔ v < 2 ^ n := by
  unfold sig
  split
  case isTrue hv => simp [hv]
  case isFalse hv => exact Nat.succ_le_iff.trans (Nat.log2_lt hv)

end Sys2Proof.Machine

namespace Sys2Proof.Proofs

open Sys2Proof.Machine

/-- Settles O11: the first bit of `bitsN` is the highest tested bit, and a sequence is fixed by its length and value. -/
theorem bitConversionsAreInverse : Obligations.BitConversionsAreInverse := by
  refine ⟨fun n v hv => ⟨bitsN_length n v, ?_, fun i hi => ?_⟩, bitsN_val, fun v n => (sig_le_iff v n).symm⟩
  · rw [val_bitsN, Nat.mod_eq_of_lt hv]
  · rw [getElem?_bitsN hi, testBit_eq_decide_shiftRight]

/-- Settles O5: the legal case of the step's inversion lemmas. -/
theorem stepRunsDecodedCommand : Obligations.StepRunsDecodedCommand :=
  fun _ _ _ _ hcmd hdecode => step_legal hcmd hdecode

end Sys2Proof.Proofs
end

section
/-! PROOFS of the statements of `10_state.md`: what a step leaves in the registers, the flags and the streams. -/

namespace Sys2Proof.Machine

open Sys2Proof.Claims

/-! ## The two ways a command ends (R203) -/

/-- The state a command leaves that passed its checks: `exec_cases`' second alternative. -/
def completed (i : Instr) (s : State) : State :=
  { emit (emissionOf i s) (registersOf i s) with rsp := s.rsp ++ [⟨.ok, valueOf i s⟩] }

theorem fail_eq_afterFailure (e : Err) (s : State) : fail e s = .next (afterFailure e s) := fail_eq e s

theorem exec_of_error {i : Instr} {s : State} {e : Err} (h : errorOf i s = some e) :
    exec i s = .next (afterFailure e s) := by
  rw [exec_eq, h, checked_some, fail_eq_afterFailure]

theorem exec_of_no_error {i : Instr} {s : State} (h : errorOf i s = none) :
    exec i s = .next (completed i s) := by
  obtain ⟨e, he, -⟩ | ⟨-, hexec⟩ := exec_cases i s
  · rw [h] at he; cases he
  · exact hexec

theorem exec_next_cases {i : Instr} {s t : State} (h : exec i s = .next t) :
    (∃ e, errorOf i s = some e ∧ t = afterFailure e s) ∨ (errorOf i s = none ∧ t = completed i s) := by
  cases herr : errorOf i s with
  | some e => rw [exec_of_error herr] at h; cases h; exact .inl ⟨e, rfl, rfl⟩
  | none => rw [exec_of_no_error herr] at h; cases h; exact .inr ⟨rfl, rfl⟩

/-- A step on a waiting word accepts it, then fails or completes the command it decodes to; `SRESET` never fails. -/
theorem step_next_cases {s t : State} {w : CmdWord} {rest : List CmdWord}
    (hcmd : s.cmd = w :: rest) (h : step s = .next t) :
    (∃ e, decode w ≠ .ok .sreset ∧ t = afterFailure e { s with cmd := rest }) ∨
    (∃ i, decode w = .ok i ∧ errorOf i { s with cmd := rest } = none ∧
      t = completed i { s with cmd := rest }) := by
  cases hd : decode w with
  | error d =>
    rw [step_illegal hcmd hd, fail_eq_afterFailure] at h
    cases h
    exact .inl ⟨.illegal, nofun, rfl⟩
  | ok i =>
    rw [step_legal hcmd hd] at h
    obtain ⟨e, herr, rfl⟩ | ⟨herr, rfl⟩ := exec_next_cases h
    · refine .inl ⟨e, fun hs => ?_, rfl⟩
      cases hs
      cases herr
    · exact .inr ⟨i, rfl, herr, rfl⟩

/-- What accepting a word, a failure and a completed command keep, every step keeps. -/
theorem step_keeps {P : State → Prop} (haccept : ∀ s rest, P s → P { s with cmd := rest })
    (hfail : ∀ e s, P s → P (afterFailure e s))
    (hdone : ∀ i s, P s → errorOf i s = none → P (completed i s))
    {s t : State} (hs : P s) (h : step s = .next t) : P t := by
  cases hcmd : s.cmd with
  | nil => rw [step_idle hcmd] at h; cases h; exact hs
  | cons w rest =>
    obtain ⟨e, -, rfl⟩ | ⟨i, -, herr, rfl⟩ := step_next_cases hcmd h
    · exact hfail e _ (haccept s rest hs)
    · exact hdone i _ (haccept s rest hs) herr

/-! ## Fields after a failure and after a completed command -/

section Fields

variable (e : Err) (i : Instr) (s : State)

@[simp] theorem afterFailure_crcWidth : (afterFailure e s).crcWidth = s.crcWidth := rfl
@[simp] theorem afterFailure_crcPoly : (afterFailure e s).crcPoly = s.crcPoly := rfl
@[simp] theorem afterFailure_crcReg : (afterFailure e s).crcReg = s.crcReg := rfl
@[simp] theorem afterFailure_crcResult : (afterFailure e s).crcResult = s.crcResult := rfl
@[simp] theorem afterFailure_rsp : (afterFailure e s).rsp = s.rsp ++ [⟨.err e, 0⟩] := rfl
@[simp] theorem afterFailure_outBits : (afterFailure e s).outBits = s.outBits := rfl

@[simp] theorem completed_crcWidth : (completed i s).crcWidth = (registersOf i s).crcWidth := rfl
@[simp] theorem completed_crcPoly : (completed i s).crcPoly = (registersOf i s).crcPoly := rfl
@[simp] theorem completed_crcReg : (completed i s).crcReg = (registersOf i s).crcReg := rfl
@[simp] theorem completed_crcResult : (completed i s).crcResult = (registersOf i s).crcResult := rfl
@[simp] theorem completed_rsp : (completed i s).rsp = s.rsp ++ [⟨.ok, valueOf i s⟩] := rfl

@[simp] theorem completed_out : (completed i s).out = appendRuns s.out (emissionOf i s) := by
  obtain ⟨-, -, hout, -⟩ := registersOf_streams i s
  rw [← hout]; rfl

@[simp] theorem completed_outBits :
    (completed i s).outBits = s.outBits ++ runsBits (emissionOf i s) := by
  simp [State.outBits]

/-- Accepting a word does not touch OUT. -/
@[simp] theorem outBits_accept (rest : List CmdWord) :
    State.outBits { s with cmd := rest } = s.outBits := rfl

end Fields

/-! ## The host's words (R30, R251): nothing a command reads or writes lies behind the word it was accepted from -/

theorem errorOf_hostSend (i : Instr) (w : CmdWord) (s : State) :
    errorOf i (hostSend w s) = errorOf i s := by
  cases i <;> rfl

theorem completed_hostSend (i : Instr) (w : CmdWord) (s : State) :
    completed i (hostSend w s) = hostSend w (completed i s) := by
  cases i <;> rfl

theorem exec_hostSend {i : Instr} {s t : State} (w : CmdWord) (h : exec i s = .next t) :
    exec i (hostSend w s) = .next (hostSend w t) := by
  obtain ⟨e, herr, rfl⟩ | ⟨herr, rfl⟩ := exec_next_cases h
  · exact exec_of_error ((errorOf_hostSend i w s).trans herr)
  · rw [exec_of_no_error ((errorOf_hostSend i w s).trans herr), completed_hostSend]

/-! ## Emission (R31, R37) -/

theorem emitting_command_of_emissionOf_ne_nil {i : Instr} {s : State} (h : emissionOf i s ≠ []) :
    (∃ n bits, i = .crcPushf n bits) ∨ i = .crcAppend ∨ (∃ x, i = .vliEnc x) ∨
      (∃ k x, i = .riceEnc k x) := by
  cases i with
  | crcPushf n bits => exact .inl ⟨n, bits, rfl⟩
  | crcAppend => exact .inr (.inl rfl)
  | vliEnc x => exact .inr (.inr (.inl ⟨x, rfl⟩))
  | riceEnc k x => exact .inr (.inr (.inr ⟨k, x, rfl⟩))
  | _ => exact absurd rfl h

/-- A command whose check, value and emission do not depend on the state answers every state alike. -/
theorem exec_same_from_every_state {i : Instr} {err : Option Err} {v : Word64} {runs : List Run}
    (herr : ∀ s, errorOf i s = err) (hval : ∀ s, valueOf i s = v) (hemit : ∀ s, emissionOf i s = runs) :
    ∃ (r : Response) (e : List Bit), ∀ s : State, ∃ t : State, exec i s = .next t ∧
      t.rsp = s.rsp ++ [r] ∧ t.outBits = s.outBits ++ e := by
  cases err with
  | some c =>
    exact ⟨⟨.err c, 0⟩, [], fun s => ⟨afterFailure c s, exec_of_error (herr s), by simp, by simp⟩⟩
  | none =>
    exact ⟨⟨.ok, v⟩, runsBits runs, fun s =>
      ⟨completed i s, exec_of_no_error (herr s), by simp [hval], by simp [hemit]⟩⟩

/-! ## The sticky flags (R26) -/

theorem sticky_afterFailure (e c : Err) (s : State) :
    sticky e (afterFailure c s) = (decide (c = e) || sticky e s) := by
  cases e <;> exact Bool.or_comm _ _

theorem sticky_hardwareReset (e : Err) (s : State) : sticky e (hardwareReset s) = false := by
  cases e <;> rfl

theorem sticky_completed_sreset (e : Err) (s : State) : sticky e (completed .sreset s) = false := by
  cases e <;> rfl

theorem sticky_completed {i : Instr} (hi : i ≠ .sreset) (e : Err) (s : State) :
    sticky e (completed i s) = sticky e s := by
  cases i with
  | sreset => exact absurd rfl hi
  | _ => cases e <;> rfl

theorem sticky_completed_iff (e : Err) (i : Instr) (s : State) :
    sticky e (completed i s) = true ↔ sticky e s = true ∧ i ≠ .sreset := by
  by_cases hi : i = .sreset
  · subst hi; simp [sticky_completed_sreset]
  · simp [sticky_completed hi, hi]

/-! ## The writers of the CRC registers (R21 to R24) -/

theorem writer_of_config_change {i : Instr} {s : State}
    (h : (registersOf i s).crcWidth ≠ s.crcWidth ∨ (registersOf i s).crcPoly ≠ s.crcPoly) :
    i = .sreset ∨ i = .crcCfg (registersOf i s).crcWidth (registersOf i s).crcPoly := by
  cases i with
  | sreset => exact .inl rfl
  | crcCfg width poly => exact .inr rfl
  | _ => exact absurd h (by simp [registersOf])

theorem writer_of_crcReg_change {i : Instr} {s : State} (h : (registersOf i s).crcReg ≠ s.crcReg) :
    (∃ n bits, i = .crcPush n bits ∨ i = .crcPushf n bits) ∨
    ((registersOf i s).crcReg = 0 ∧ (i = .sreset ∨ i = .crcStart ∨
      i = .crcCfg (registersOf i s).crcWidth (registersOf i s).crcPoly)) := by
  cases i with
  | sreset => exact .inr ⟨rfl, .inl rfl⟩
  | crcCfg width poly => exact .inr ⟨rfl, .inr (.inr rfl)⟩
  | crcStart => exact .inr ⟨rfl, .inr (.inl rfl)⟩
  | crcPush n bits => exact .inl ⟨n, bits, .inl rfl⟩
  | crcPushf n bits => exact .inl ⟨n, bits, .inr rfl⟩
  | _ => exact absurd rfl h

theorem writer_of_crcResult_change {i : Instr} {s : State}
    (h : (registersOf i s).crcResult ≠ s.crcResult) :
    ((i = .crcFinal ∨ i = .crcAppend) ∧ (registersOf i s).crcResult = valueOf i s) ∨
    ((registersOf i s).crcResult = 0 ∧ (i = .sreset ∨
      i = .crcCfg (registersOf i s).crcWidth (registersOf i s).crcPoly)) := by
  cases i with
  | sreset => exact .inr ⟨rfl, .inl rfl⟩
  | crcCfg width poly => exact .inr ⟨rfl, .inr rfl⟩
  | crcFinal => exact .inl ⟨.inl rfl, rfl⟩
  | crcAppend => exact .inl ⟨.inr rfl, rfl⟩
  | _ => exact absurd rfl h

/-! ## The register invariants (R38) -/

theorem inv_resetWith (p : Params) : (State.resetWith p).Inv := by
  simp [State.Inv, State.resetWith]

theorem inv_absorb {s : State} (h : s.Inv) (hw : s.crcWidth ≠ 0) (b : List Bit) : (absorb b s).Inv := by
  have ⟨hwidth, hpoly, _, hresult⟩ := h
  refine ⟨hwidth, hpoly, ?_, hresult⟩
  rw [absorb_crcReg_toNat h hw b]
  exact h.shiftin_lt hw b

theorem inv_store_flush {s : State} (h : s.Inv) (hw : s.crcWidth ≠ 0) :
    State.Inv { s with crcResult := flush s } := by
  have ⟨hwidth, hpoly, hreg, _⟩ := h
  exact ⟨hwidth, hpoly, hreg, flush_lt h hw⟩

/-- R203: the checks come before the writes, so a command that passes them writes values its width holds. -/
theorem inv_registersOf {i : Instr} {s : State} (h : s.Inv) (herr : errorOf i s = none) :
    (registersOf i s).Inv := by
  have ⟨hwidth, hpoly, _, hresult⟩ := h
  cases i with
  | sreset => exact inv_resetWith s.params
  | crcCfg width poly =>
    obtain ⟨-, hmax, hfits⟩ := (cfgError_none_iff width poly s).mp herr
    exact ⟨hmax, hfits, Nat.two_pow_pos _, Nat.two_pow_pos _⟩
  | crcStart => exact ⟨hwidth, hpoly, Nat.two_pow_pos _, hresult⟩
  | crcPush n bits =>
    obtain ⟨-, hw, -⟩ := (pushError_none_iff n bits s).mp herr
    exact inv_absorb h hw _
  | crcPushf n bits =>
    obtain ⟨-, hw, -⟩ := (pushError_none_iff n bits s).mp herr
    exact inv_absorb h hw _
  | crcFinal => exact inv_store_flush h ((unconfiguredError_none_iff s).mp herr)
  | crcAppend => exact inv_store_flush h ((unconfiguredError_none_iff s).mp herr)
  | _ => exact h

theorem step_keeps_inv {s t : State} (hs : s.Inv) (h : step s = .next t) : t.Inv :=
  step_keeps (P := State.Inv) (fun _ _ hs => hs) (fun _ _ hs => hs)
    (fun _ _ hs herr => inv_registersOf hs herr) hs h

theorem inv_width_zero {s : State} (h : s.Inv) (hw : s.crcWidth = 0) :
    s.crcPoly = 0 ∧ s.crcReg = 0 ∧ s.crcResult = 0 := by
  obtain ⟨-, hpoly, hreg, hresult⟩ := h
  have zero_of_lt {v : Word64} (hv : v.toNat < 2 ^ s.crcWidth.toNat) : v = 0 :=
    BitVec.eq_of_toNat_eq (by simpa [hw] using hv)
  exact ⟨zero_of_lt hpoly, zero_of_lt hreg, zero_of_lt hresult⟩

/-! ## OUT's canonical form (log entry 3) -/

theorem step_keeps_outCanonical {s t : State} (hs : s.OutCanonical) (h : step s = .next t) :
    t.OutCanonical :=
  step_keeps (P := State.OutCanonical) (fun _ _ hs => hs) (fun _ _ hs => hs)
    (fun i s hs _ => by rw [State.OutCanonical, completed_out]; exact canonical_appendRuns _ _ hs) hs h

theorem canonical_tail {r : Run} {rs : List Run} (h : canonical (r :: rs) = true) :
    canonical rs = true := by
  cases rs with
  | nil => rfl
  | cons y rs => simp only [canonical, Bool.and_eq_true] at h; exact h.2

theorem canonical_head_pos {r : Run} {rs : List Run} (h : canonical (r :: rs) = true) :
    0 < r.count := by
  cases rs with
  | nil => simpa [canonical] using h
  | cons y rs => simp only [canonical, Bool.and_eq_true, decide_eq_true_eq] at h; exact h.1.1

theorem head?_runsBits_cons {r : Run} {rs : List Run} (h : 0 < r.count) :
    (runsBits (r :: rs)).head? = some r.bit := by
  simp [runsBits, List.head?_append, List.head?_replicate, h.ne']

/-- In canonical form a run ends where its bit ends. -/
theorem head?_runsBits_tail_ne {r : Run} {rs : List Run} (h : canonical (r :: rs) = true) :
    (runsBits rs).head? ≠ some r.bit := by
  cases rs with
  | nil => simp [runsBits]
  | cons y rs =>
    rw [head?_runsBits_cons (canonical_head_pos (canonical_tail h))]
    simp only [canonical, Bool.and_eq_true, bne_iff_ne] at h
    simpa [eq_comm] using h.1.2

/-- A maximal run of one bit at the front of a sequence is fixed by the sequence. -/
theorem replicate_append_inj {b : Bit} {m n : Nat} {s t : List Bit}
    (hs : s.head? ≠ some b) (ht : t.head? ≠ some b)
    (h : List.replicate m b ++ s = List.replicate n b ++ t) : m = n ∧ s = t := by
  induction m generalizing n with
  | zero =>
    cases n with
    | zero => exact ⟨rfl, h⟩
    | succ n => rw [List.replicate_zero, List.nil_append] at h; subst h; exact absurd rfl hs
  | succ m ih =>
    cases n with
    | zero => rw [List.replicate_zero, List.nil_append] at h; subst h; exact absurd rfl ht
    | succ n =>
      obtain ⟨hmn, hst⟩ := ih (List.cons.inj h).2
      exact ⟨congrArg Nat.succ hmn, hst⟩

theorem runsBits_injective_of_canonical {a b : List Run} (ha : canonical a = true)
    (hb : canonical b = true) (h : runsBits a = runsBits b) : a = b := by
  induction a generalizing b with
  | nil =>
    cases b with
    | nil => rfl
    | cons y b =>
      have hy := head?_runsBits_cons (rs := b) (canonical_head_pos hb)
      rw [← h] at hy
      cases hy
  | cons x a ih =>
    have hx := head?_runsBits_cons (rs := a) (canonical_head_pos ha)
    cases b with
    | nil => rw [h] at hx; cases hx
    | cons y b =>
      have hbit : x.bit = y.bit := by
        rw [h, head?_runsBits_cons (canonical_head_pos hb)] at hx
        exact (Option.some.inj hx).symm
      have hy := head?_runsBits_tail_ne hb
      simp only [runsBits, ← hbit] at h hy
      obtain ⟨hcount, hrest⟩ := replicate_append_inj (head?_runsBits_tail_ne ha) hy h
      have hxy : x = y := by cases x; cases y; exact congrArg₂ Run.mk hbit hcount
      rw [hxy, ih (canonical_tail ha) (canonical_tail hb) hrest]

/-! ## Cleared registers (R39) -/

theorem readReg_of_cleared {t : State} (hwidth : t.crcWidth = 0) (hpoly : t.crcPoly = 0)
    (hreg : t.crcReg = 0) (hresult : t.crcResult = 0) (hflags : t.NoError) {r : CReg} (hr : r ≠ .caps) :
    readReg r t = 0 := by
  obtain ⟨hillegal, hconfig, hrange⟩ := hflags
  cases r with
  | status => simp [readReg, statusWord, cfgd, hwidth, hillegal, hconfig, hrange]
  | crcWidth => simp [readReg, hwidth]
  | crcPoly => exact hpoly
  | crcReg => exact hreg
  | crcResult => exact hresult
  | caps => exact absurd rfl hr

end Sys2Proof.Machine

namespace Sys2Proof.Proofs

open Sys2Proof.Machine Sys2Proof.Claims

/-- Settles O32: the checks of a command that writes bound what it writes by `2^CRC_WIDTH`. -/
theorem invariantKeptByEveryStep : Obligations.InvariantKeptByEveryStep :=
  ⟨inv_resetWith, fun _ _ hs h => step_keeps_inv hs h, fun _ hs hw => inv_width_zero hs hw⟩

/-- Settles O9: the step's word stays the first, and sending commutes with what it does. -/
theorem sendingDoesNotDisturb : Obligations.SendingDoesNotDisturb := by
  intro s t w hne h
  cases hcmd : s.cmd with
  | nil => exact absurd hcmd hne
  | cons v rest =>
    have hsent : (hostSend w s).cmd = v :: (rest ++ [w]) := by simp [hcmd]
    cases hd : decode v with
    | ok i =>
      rw [step_legal hcmd hd] at h
      rw [step_legal hsent hd]
      exact exec_hostSend w h
    | error d =>
      rw [step_illegal hcmd hd, fail_eq_afterFailure] at h
      cases h
      rw [step_illegal hsent hd, fail_eq_afterFailure]
      rfl

/-- Settles O26: neither encoder's check, value or emission reads the state. -/
theorem encodersAreStateless : Obligations.EncodersAreStateless := by
  rintro k value i (rfl | rfl)
  · exact exec_same_from_every_state (fun _ => rfl) (fun _ => rfl) (fun _ => rfl)
  · exact exec_same_from_every_state (fun _ => rfl) (fun _ => rfl) (fun _ => rfl)

/-- Settles O28: a failure sets its own flag, a completed command keeps every flag or is `SRESET`. -/
theorem stickyFlagsFollowFailures : Obligations.StickyFlagsFollowFailures := by
  refine ⟨fun s t w rest hcmd h => ?_, fun s e => sticky_hardwareReset e s⟩
  have hflags (e : Err) : sticky e { s with cmd := rest } = sticky e s := by cases e <;> rfl
  obtain ⟨c, hlegal, rfl⟩ | ⟨i, hdecode, -, rfl⟩ := step_next_cases hcmd h
  · refine ⟨⟨.err c, 0⟩, rfl, fun e => ?_⟩
    simp [sticky_afterFailure, hflags, hlegal]
  · refine ⟨⟨.ok, _⟩, rfl, fun e => ?_⟩
    simp [sticky_completed_iff, hflags, hdecode]

/-- Settles O30: a failure emits nothing, and every other command's emission is empty. -/
theorem onlyFourCommandsEmit : Obligations.OnlyFourCommandsEmit := by
  intro s t w rest hcmd h hout
  obtain ⟨e, -, rfl⟩ | ⟨i, hdecode, -, rfl⟩ := step_next_cases hcmd h
  · exact absurd rfl hout
  · refine ⟨i, _, hdecode, rfl, emitting_command_of_emissionOf_ne_nil (s := { s with cmd := rest }) ?_⟩
    intro hnil
    exact hout (by simp [hnil, runsBits])

/-- Settles O31: a failure changes no CRC register, and a completed command changes what its row says. -/
theorem crcRegisterWriters : Obligations.CrcRegisterWriters := by
  intro s t w rest hcmd h
  obtain ⟨e, -, rfl⟩ | ⟨i, hdecode, -, rfl⟩ := step_next_cases hcmd h
  · simp
  · simp only [hdecode, Except.ok.injEq]
    refine ⟨writer_of_config_change, writer_of_crcReg_change, fun hne => ?_⟩
    obtain ⟨hi, hvalue⟩ | hzero := writer_of_crcResult_change hne
    · exact .inl ⟨hi, by rw [completed_crcResult, hvalue, completed_rsp]⟩
    · exact .inr hzero

/-- Settles O34: every emission goes through `appendRuns`, which keeps the form. -/
theorem outStaysCanonical : Obligations.OutStaysCanonical :=
  fun _ _ hs h => step_keeps_outCanonical hs h

/-- Settles O35: a canonical run is the longest run of its bit at the front of the sequence. -/
theorem canonicalRunsAreUnique : Obligations.CanonicalRunsAreUnique :=
  fun _ _ ha hb h => runsBits_injective_of_canonical ha hb h

/-- Settles O15: both resets clear the stored registers and keep the parameter `CAPS` is read from. -/
theorem resetsSetEveryRegister : Obligations.ResetsSetEveryRegister := by
  intro s t h
  have hcleared : t.crcWidth = 0 ∧ t.crcPoly = 0 ∧ t.crcReg = 0 ∧ t.crcResult = 0 ∧ t.NoError ∧
      t.params = s.params := by
    obtain rfl | h := h
    · exact ⟨rfl, rfl, rfl, rfl, ⟨rfl, rfl, rfl⟩, rfl⟩
    · rw [exec_of_no_error rfl] at h
      cases h
      exact ⟨rfl, rfl, rfl, rfl, ⟨rfl, rfl, rfl⟩, rfl⟩
  obtain ⟨hwidth, hpoly, hreg, hresult, hflags, hparams⟩ := hcleared
  exact ⟨hwidth, hpoly, hreg, hresult, hflags,
    fun r hr => readReg_of_cleared hwidth hpoly hreg hresult hflags hr, congrArg capsWord hparams⟩

/-- Settles O33: the reset state's registers are 0 and its OUT is empty. -/
theorem invariantsHoldAtReset : Obligations.InvariantsHoldAtReset :=
  fun p => ⟨inv_resetWith p, rfl⟩

end Sys2Proof.Proofs
end

section
/-! PROOFS of the statements of `30_encoding.md`: legal words and well-formed instructions correspond one to one
through `decode` and `encode`, every word is answered, and the layout of the response word. -/

namespace Sys2Proof

/-! ## Instructions and legal words (R70 to R77) -/

/-- The family `EncodedFields`, for every instruction at once. -/
theorem encodedFields (i : Instr) : Laws.EncodedFields.Statement i := by
  cases i with
  | nop => exact Laws.EncodedFields.nop
  | rdreg reg => exact Laws.EncodedFields.rdreg reg
  | sreset => exact Laws.EncodedFields.sreset
  | crcCfg width poly => exact Laws.EncodedFields.crcCfg width poly
  | crcStart => exact Laws.EncodedFields.crcStart
  | crcPush n bits => exact Laws.EncodedFields.crcPush n bits
  | crcPushf n bits => exact Laws.EncodedFields.crcPushf n bits
  | crcFinal => exact Laws.EncodedFields.crcFinal
  | crcAppend => exact Laws.EncodedFields.crcAppend
  | vliEnc value => exact Laws.EncodedFields.vliEnc value
  | riceEnc k value => exact Laws.EncodedFields.riceEnc k value

theorem toNat_index_le (r : CReg) : r.index.toNat ≤ 5 := by cases r <;> decide

/-- R77 step (3): well-formedness is exactly the range check on `arg` that `decode` makes. -/
theorem wf_iff_arg_le_argMax (i : Instr) : i.wf = true ↔ i.arg.toNat ≤ i.opcode.argMax := by
  have byte_le (b : Byte) : b.toNat ≤ 255 := Nat.le_of_lt_succ b.isLt
  cases i with
  | rdreg reg => exact iff_of_true rfl (toNat_index_le reg)
  | crcPush n bits => exact decide_eq_true_iff
  | crcPushf n bits => exact decide_eq_true_iff
  | _ => exact iff_of_true rfl (byte_le _)

@[simp] theorem withOperands_arg_opd (i : Instr) : i.opcode.withOperands i.arg i.opd = some i := by
  cases i with
  | rdreg reg => simp [Opcode.withOperands, Instr.opcode, Instr.arg]
  | _ => rfl

/-- R72: `withOperands` reads the fields its opcode's shape uses, and no other. -/
theorem fields_of_withOperands {op : Opcode} {arg : Byte} {opd : Word64} {i : Instr}
    (h : op.withOperands arg opd = some i) :
    i.opcode = op ∧ (op.shape.usesArg = true → i.arg = arg) ∧
      (op.shape.usesOpd = true → i.opd = opd) := by
  cases op with
  | rdreg =>
    obtain ⟨reg, hreg, rfl⟩ := Option.map_eq_some_iff.mp h
    exact ⟨rfl, fun _ => index_of_ofIndex hreg, nofun⟩
  | _ =>
    cases h
    simp [Instr.opcode, Instr.arg, Instr.opd, Opcode.shape, Shape.usesArg, Shape.usesOpd]

/-- When the fields an opcode does not use are zero, as R71 demands, an instruction's fields are the only ones that
give it. -/
theorem withOperands_eq_some_iff {op : Opcode} {arg : Byte} {opd : Word64} {i : Instr}
    (harg : op.shape.usesArg = false → arg = 0) (hopd : op.shape.usesOpd = false → opd = 0) :
    op.withOperands arg opd = some i ↔ i.opcode = op ∧ i.arg = arg ∧ i.opd = opd := by
  constructor
  · intro h
    obtain ⟨rfl, usedArg, usedOpd⟩ := fields_of_withOperands h
    obtain ⟨-, -, -, unusedArg, unusedOpd⟩ := encodedFields i
    refine ⟨rfl, ?_, ?_⟩
    · cases hs : i.opcode.shape.usesArg with
      | true => exact usedArg hs
      | false => rw [unusedArg hs, harg hs]
    · cases hs : i.opcode.shape.usesOpd with
      | true => exact usedOpd hs
      | false => rw [unusedOpd hs, hopd hs]
  · rintro ⟨rfl, rfl, rfl⟩
    exact withOperands_arg_opd i

/-- R77: the legal words are the words of the well-formed instructions, each of its own instruction. -/
theorem decode_ok_iff_wf_encode (w : CmdWord) (i : Instr) :
    decode w = .ok i ↔ i.wf = true ∧ encode i = w := by
  constructor
  · intro h
    obtain ⟨op, hcode, harg, hopd, hmax, hi⟩ := (decode_ok_iff w i).mp h
    obtain ⟨rfl, hargEq, hopdEq⟩ := (withOperands_eq_some_iff harg hopd).mp hi
    refine ⟨(wf_iff_arg_le_argMax i).mpr (hargEq ▸ hmax), ?_⟩
    rw [encode, code_of_ofCode hcode, hargEq, hopdEq, mkWord_fields]
  · rintro ⟨hwf, rfl⟩
    obtain ⟨-, -, -, unusedArg, unusedOpd⟩ := encodedFields i
    exact (decode_mkWord_ok_iff ..).mpr
      ⟨unusedArg, unusedOpd, (wf_iff_arg_le_argMax i).mp hwf, withOperands_arg_opd i⟩

end Sys2Proof

namespace Sys2Proof.Machine

open Sys2Proof.Claims

/-! ## The step of a waiting word (R77, R203) -/

section Fields

variable (e : Err) (i : Instr) (s : State)

@[simp] theorem afterFailure_cmd : (afterFailure e s).cmd = s.cmd := rfl
@[simp] theorem afterFailure_params : (afterFailure e s).params = s.params := rfl

@[simp] theorem completed_cmd : (completed i s).cmd = s.cmd := (registersOf_streams i s).1

@[simp] theorem completed_params : (completed i s).params = s.params := by
  obtain ⟨-, -, -, hparams⟩ := registersOf_streams i s
  exact hparams

end Fields

/-- No word stops the block (R209): a step on a waiting word always answers, by a failure or a completed command. -/
theorem step_fails_or_completes {s : State} {w : CmdWord} {rest : List CmdWord} (hcmd : s.cmd = w :: rest) :
    (∃ e, step s = .next (afterFailure e { s with cmd := rest })) ∨
    (∃ i, step s = .next (completed i { s with cmd := rest })) := by
  cases hd : decode w with
  | error d => exact .inl ⟨.illegal, by rw [step_illegal hcmd hd, fail_eq_afterFailure]⟩
  | ok i =>
    rw [step_legal hcmd hd]
    cases herr : errorOf i { s with cmd := rest } with
    | some e => exact .inl ⟨e, exec_of_error herr⟩
    | none => exact .inr ⟨i, exec_of_no_error herr⟩

/-! ## The response word (R74) -/

theorem Response.toNat_word (r : Response) :
    r.word.toNat = r.code.bits.toNat * 2 ^ 64 + r.value.toNat := by
  have happend : r.word.toNat = r.code.bits.toNat <<< 64 ||| r.value.toNat := BitVec.toNat_append ..
  rw [happend, ← Nat.shiftLeft_add_eq_or_of_lt r.value.isLt, Nat.shiftLeft_eq]

end Sys2Proof.Machine

namespace Sys2Proof.Proofs

open Sys2Proof.Machine Sys2Proof.Claims

/-- Settles O2: `decode`'s checks on the fields of `encode i` are exactly the well-formedness of `i`. -/
theorem decodeEncodeIsIdentity : Obligations.DecodeEncodeIsIdentity :=
  fun i hwf => (decode_ok_iff_wf_encode (encode i) i).mpr ⟨hwf, rfl⟩

/-- Settles O3: every field of a legal word is read, or checked to be the zero that `encode` writes there. -/
theorem legalWordHasOneInstruction : Obligations.LegalWordHasOneInstruction :=
  fun w i h => (decode_ok_iff_wf_encode w i).mp h

/-- Settles O7: the step fails, with no bit and value 0, or completes a command, with its value and its emission. -/
theorem stepAnswersOneResponse : Obligations.StepAnswersOneResponse := by
  intro s w rest hcmd
  obtain ⟨e, hstep⟩ | ⟨i, hstep⟩ := step_fails_or_completes hcmd
  · exact ⟨_, ⟨.err e, 0⟩, [], hstep, rfl, rfl, rfl, by simp, fun _ => ⟨rfl, rfl⟩⟩
  · exact ⟨_, ⟨.ok, valueOf i { s with cmd := rest }⟩, runsBits (emissionOf i { s with cmd := rest }), hstep,
      by simp, by simp, by simp, by simp, fun hcode => absurd rfl hcode⟩

/-- Settles O1: eleven closed words, one for each row of R76, evaluated by the decoder. -/
theorem decodeReadsWrittenWords : Obligations.DecodeReadsWrittenWords := by
  unfold Obligations.DecodeReadsWrittenWords
  decide

/-- Settles O10: the four code numbers of R200 in the layout of `Response.toNat_word`. -/
theorem responseWordLayout : Obligations.ResponseWordLayout := by
  intro v
  refine ⟨?_, Response.toNat_word _, Response.toNat_word _, Response.toNat_word _⟩
  have hok : (Response.word ⟨.ok, v⟩).toNat = 0 * 2 ^ 64 + v.toNat := Response.toNat_word _
  rw [hok, Nat.zero_mul, Nat.zero_add]

end Sys2Proof.Proofs
end

section
/-! PROOFS of the statements of `40_crc.md`: the reference functions as polynomial division over GF(2), the CRC commands
one by one, and the streaming law that joins the two. -/

namespace Sys2Proof

/-! ## Words no instruction is decoded from (R77, R201) -/

theorem encode_injective : Function.Injective encode := by
  intro i j h
  obtain ⟨hopci, hargi, hopdi, -, -⟩ := encodedFields i
  obtain ⟨hopcj, hargj, hopdj, -, -⟩ := encodedFields j
  rw [h] at hopci hargi hopdi
  have hopcode : some i.opcode = some j.opcode := by
    rw [← ofCode_code i.opcode, ← ofCode_code j.opcode, ← hopci, ← hopcj]
  have hi := withOperands_arg_opd i
  rw [Option.some.inj hopcode, ← hargi, ← hopdi, hargj, hopdj, withOperands_arg_opd j] at hi
  exact (Option.some.inj hi).symm

theorem decode_encode_iff (i : Instr) : decode (encode i) = .ok i ↔ i.wf = true := by
  simp [decode_ok_iff_wf_encode]

end Sys2Proof

namespace Sys2Proof.Machine

open Sys2Proof.Claims

/-! ## The reference functions on numbers (R101 to R104) -/

/-- R101: both arms at once, the top bit dropped. -/
theorem crcShift_eq {poly w reg : Nat} (hw : 1 ≤ w) (hr : reg < 2 ^ w) (b : Bit) :
    crcShift poly w reg b =
      (((reg % 2 ^ (w - 1)) <<< 1) ||| b.toNat) ^^^ if 2 ^ (w - 1) ≤ reg then poly else 0 := by
  have htwo : 2 ^ w = 2 * 2 ^ (w - 1) := by rw [← pow_succ', Nat.sub_add_cancel hw]
  unfold crcShift
  split
  case isTrue htop => rw [Nat.mod_eq_sub_mod htop, Nat.mod_eq_of_lt (by omega)]
  case isFalse htop => rw [Nat.mod_eq_of_lt (by omega)]

theorem crcShift_of_lt {poly w reg : Nat} (h : reg < 2 ^ (w - 1)) (b : Bit) :
    crcShift poly w reg b = 2 * reg + b.toNat := by
  rw [crcShift, if_neg (by omega), Nat.xor_zero, shift_or_bit]

/-- Until the register is full, shifting in only joins the bits to it (R104). -/
theorem crcShiftin_of_fits {poly w k reg : Nat} {s : List Bit} (hr : reg < 2 ^ k) (hk : k + s.length ≤ w) :
    crcShiftin poly w reg s = reg * 2 ^ s.length + val s := by
  induction s generalizing reg k with
  | nil => simp [val]
  | cons b s ih =>
    rw [List.length_cons] at hk
    have hroom : reg < 2 ^ (w - 1) := hr.trans_le (Nat.pow_le_pow_right (by decide) (by omega))
    have hnext : 2 * reg + b.toNat < 2 ^ (k + 1) := by
      have := Bool.toNat_le b
      rw [pow_succ]
      omega
    rw [crcShiftin_cons, crcShift_of_lt hroom, ih hnext (by omega), val, List.length_cons, pow_succ]
    ring

/-- R104: the seed of D0 is what shifting its bits in from 0 leaves. -/
theorem crcCompute_eq_crcShiftin (poly w : Nat) (s : List Bit) :
    crcCompute poly w s = crcShiftin poly w 0 (s ++ List.replicate w false) := by
  have hlen : ((s ++ List.replicate w false).take w).length ≤ w := List.length_take_le ..
  have hseed : crcShiftin poly w 0 ((s ++ List.replicate w false).take w) =
      val ((s ++ List.replicate w false).take w) := by
    rw [crcShiftin_of_fits (k := 0) (by simp) (by omega), zero_mul, zero_add]
  rw [crcCompute, ← hseed, ← crcShiftin_append, List.take_append_drop]

theorem crcCompute_lt {poly w : Nat} (hw : 1 ≤ w) (hp : poly < 2 ^ w) (s : List Bit) :
    crcCompute poly w s < 2 ^ w := by
  rw [crcCompute_eq_crcShiftin]
  exact crcShiftin_lt hw hp (Nat.two_pow_pos w) _

/-! ## The edge cases (R107) -/

theorem crcShift_zero_false (poly w : Nat) : crcShift poly w 0 false = 0 :=
  crcShift_of_lt (Nat.two_pow_pos _) false

theorem crcShiftin_zero_replicate_false (poly w n : Nat) :
    crcShiftin poly w 0 (List.replicate n false) = 0 := by
  induction n with
  | zero => rfl
  | succ n ih => rw [List.replicate_succ, crcShiftin_cons, crcShift_zero_false, ih]

theorem crcCompute_replicate_false (poly w n : Nat) : crcCompute poly w (List.replicate n false) = 0 := by
  rw [crcCompute_eq_crcShiftin, List.replicate_append_replicate, crcShiftin_zero_replicate_false]

theorem crcCompute_false_cons (poly w : Nat) (s : List Bit) :
    crcCompute poly w (false :: s) = crcCompute poly w s := by
  simp [crcCompute_eq_crcShiftin, crcShift_zero_false]

/-- The seed is the top bit alone; the one step left drops it and XORs the polynomial. -/
theorem crcCompute_singleton_true {poly w : Nat} (hw : 1 ≤ w) : crcCompute poly w [true] = poly := by
  obtain ⟨m, rfl⟩ : ∃ m, w = m + 1 := ⟨w - 1, by omega⟩
  have hzeros : List.replicate (m + 1) false = List.replicate m false ++ [false] := List.replicate_succ'
  have hseed : crcShiftin poly (m + 1) 0 (true :: List.replicate m false) = 2 ^ m := by
    rw [crcShiftin_of_fits (k := 0) (by simp) (by simp)]
    simp [val]
  have hlast : crcShift poly (m + 1) (2 ^ m) false = poly := by simp [crcShift]
  rw [crcCompute_eq_crcShiftin, hzeros, ← List.append_assoc, crcShiftin_append, List.singleton_append, hseed,
    crcShiftin_cons, hlast, crcShiftin_nil]

theorem crcShiftin_one_one {reg : Nat} (hr : reg < 2) (s : List Bit) :
    crcShiftin 1 1 reg s = (reg + s.count true) % 2 := by
  induction s generalizing reg with
  | nil => simpa using (Nat.mod_eq_of_lt hr).symm
  | cons b s ih =>
    have hstep : crcShift 1 1 reg b = (reg + b.toNat) % 2 := by
      obtain rfl | rfl : reg = 0 ∨ reg = 1 := by omega
      · cases b <;> decide
      · cases b <;> decide
    have hcount : (b :: s).count true = b.toNat + s.count true := by cases b <;> simp [add_comm]
    rw [crcShiftin_cons, hstep, ih (Nat.mod_lt _ (by decide)), hcount]
    omega

/-- Width 1, polynomial 1: the parity. -/
theorem crcCompute_one_one (s : List Bit) : crcCompute 1 1 s = s.count true % 2 := by
  rw [crcCompute_eq_crcShiftin, crcShiftin_one_one (by decide)]
  simp

section Polynomials

/-! ## Sequences as polynomials over GF(2) (R100, R105) -/

open Polynomial

theorem polyOfBits_append (s t : List Bit) :
    polyOfBits (s ++ t) = polyOfBits s * X ^ t.length + polyOfBits t := by
  induction s with
  | nil => simp [polyOfBits]
  | cons b s ih =>
    simp only [List.cons_append, polyOfBits, ih, List.length_append, pow_add]
    split <;> ring

theorem polyOfBits_replicate_false (n : Nat) : polyOfBits (List.replicate n false) = 0 := by
  induction n with
  | zero => rfl
  | succ n ih => simp [List.replicate_succ, polyOfBits, ih]

/-- XOR is addition. -/
theorem polyOfBits_zipWith_xor {s t : List Bit} (h : s.length = t.length) :
    polyOfBits (List.zipWith (fun a b => a ^^ b) s t) = polyOfBits s + polyOfBits t := by
  induction s generalizing t with
  | nil => simp [polyOfBits, List.length_eq_zero_iff.mp h.symm]
  | cons a s ih =>
    cases t with
    | nil => cases h
    | cons b t =>
      have hlen : s.length = t.length := Nat.succ.inj h
      have hhead : (if (a ^^ b) = true then X ^ t.length else 0 : (ZMod 2)[X]) =
          (if a then X ^ t.length else 0) + (if b then X ^ t.length else 0) := by
        cases a <;> cases b <;> simp [CharTwo.add_self_eq_zero]
      simp only [List.zipWith_cons_cons, polyOfBits, ih hlen, List.length_zipWith, hlen, min_self, hhead]
      ring

theorem degree_polyOfBits_lt (s : List Bit) : (polyOfBits s).degree < s.length := by
  induction s with
  | nil => simp [polyOfBits]
  | cons b s ih =>
    have hlength : (s.length : WithBot ℕ) < ((s.length + 1 : ℕ) : WithBot ℕ) := by
      exact_mod_cast Nat.lt_succ_self s.length
    rw [polyOfBits, List.length_cons]
    refine (degree_add_le _ _).trans_lt (max_lt ?_ (ih.trans hlength))
    cases b
    · simp
    · simpa using hlength

/-- Sequences of one length are told apart by their polynomials. -/
theorem eq_of_polyOfBits_eq {s t : List Bit} (hlen : s.length = t.length) (h : polyOfBits s = polyOfBits t) :
    s = t := by
  induction s generalizing t with
  | nil => exact (List.length_eq_zero_iff.mp hlen.symm).symm
  | cons a s ih =>
    cases t with
    | nil => cases hlen
    | cons b t =>
      have hlen' : s.length = t.length := Nat.succ.inj hlen
      have hcoeff := congrArg (fun p => p.coeff t.length) h
      have hs := coeff_eq_zero_of_degree_lt (hlen' ▸ degree_polyOfBits_lt s)
      have ht := coeff_eq_zero_of_degree_lt (degree_polyOfBits_lt t)
      have hab : a = b := by
        cases a <;> cases b <;> simp [polyOfBits, hlen', hs, ht] at hcoeff ⊢
      subst hab
      rw [polyOfBits, polyOfBits, hlen', add_right_inj] at h
      rw [ih hlen' h]

theorem eq_of_polyOfBits_bitsN_eq {w x y : Nat} (hx : x < 2 ^ w) (hy : y < 2 ^ w)
    (h : polyOfBits (bitsN w x) = polyOfBits (bitsN w y)) : x = y := by
  have hbits := congrArg val (eq_of_polyOfBits_eq (by simp) h)
  rwa [val_bitsN, val_bitsN, Nat.mod_eq_of_lt hx, Nat.mod_eq_of_lt hy] at hbits

theorem bitsN_xor (w x y : Nat) :
    bitsN w (x ^^^ y) = List.zipWith (fun a b => a ^^ b) (bitsN w x) (bitsN w y) := by
  induction w with
  | zero => rfl
  | succ w ih => simp [bitsN, ih]

@[simp] theorem polyOfBits_bitsN_zero (w : Nat) : polyOfBits (bitsN w 0) = 0 := by
  induction w with
  | zero => rfl
  | succ w ih => simp [bitsN, polyOfBits, ih]

theorem polyOfBits_bitsN_xor (w x y : Nat) :
    polyOfBits (bitsN w (x ^^^ y)) = polyOfBits (bitsN w x) + polyOfBits (bitsN w y) := by
  rw [bitsN_xor, polyOfBits_zipWith_xor (by simp)]

/-! ## The CRC as a remainder (R105) -/

theorem monic_generator (poly w : Nat) : (generator poly w).Monic :=
  monic_X_pow_add (by simpa using degree_polyOfBits_lt (bitsN w poly))

theorem degree_generator (poly w : Nat) : (generator poly w).degree = w := by
  have hlow : (polyOfBits (bitsN w poly)).degree < (X ^ w : (ZMod 2)[X]).degree := by
    simpa using degree_polyOfBits_lt (bitsN w poly)
  rw [generator, degree_add_eq_left_of_degree_lt hlow, degree_X_pow]

/-- A register is its own remainder. -/
theorem polyOfBits_bitsN_modByMonic (poly w v : Nat) :
    polyOfBits (bitsN w v) %ₘ generator poly w = polyOfBits (bitsN w v) := by
  rw [modByMonic_eq_self_iff (monic_generator poly w), degree_generator]
  simpa using degree_polyOfBits_lt (bitsN w v)

/-- The register with its top bit dropped, moved up one place, as bits. -/
theorem bitsN_shift_or_bit (m reg : Nat) (b : Bit) :
    bitsN (m + 1) (((reg % 2 ^ m) <<< 1) ||| b.toNat) = bitsN m reg ++ [b] := by
  have hval : val (bitsN m reg ++ [b]) = ((reg % 2 ^ m) <<< 1) ||| b.toNat := by
    rw [val_append, val_bitsN, shift_or_bit, mul_comm]
    simp [val]
  rw [← hval]
  simpa using bitsN_val (bitsN m reg ++ [b])

/-- R101 on polynomials: the step subtracts the generator when the top bit is set. -/
theorem polyOfBits_crcShift {poly w reg : Nat} (hw : 1 ≤ w) (hr : reg < 2 ^ w) (b : Bit) :
    polyOfBits (bitsN w (crcShift poly w reg b)) + (if 2 ^ (w - 1) ≤ reg then generator poly w else 0) =
      polyOfBits (bitsN w reg) * X + polyOfBits [b] := by
  obtain ⟨m, rfl⟩ : ∃ m, w = m + 1 := ⟨w - 1, by omega⟩
  have htop : reg.testBit m = decide (2 ^ m ≤ reg) := by
    by_cases h : 2 ^ m ≤ reg
    · simpa [h] using Nat.testBit_of_two_pow_le_and_two_pow_add_one_gt h hr
    · simpa [h] using Nat.testBit_lt_two_pow (by omega : reg < 2 ^ m)
  have hbits : bitsN (m + 1) reg = decide (2 ^ m ≤ reg) :: bitsN m reg := by rw [bitsN, htop]
  have hR : polyOfBits (bitsN (m + 1) reg) * X + polyOfBits [b] =
      polyOfBits (decide (2 ^ m ≤ reg) :: (bitsN m reg ++ [b])) := by
    rw [hbits, ← List.cons_append, polyOfBits_append]
    simp
  rw [hR, crcShift_eq hw hr, polyOfBits_bitsN_xor, Nat.add_sub_cancel, bitsN_shift_or_bit, polyOfBits]
  by_cases h : 2 ^ m ≤ reg
  · simp only [h, if_true, decide_true, generator, List.length_append, bitsN_length, List.length_singleton]
    linear_combination CharTwo.add_self_eq_zero (polyOfBits (bitsN (m + 1) poly))
  · simp [h]

theorem polyOfBits_crcShift_modByMonic {poly w reg : Nat} (hw : 1 ≤ w) (hr : reg < 2 ^ w) (b : Bit) :
    polyOfBits (bitsN w (crcShift poly w reg b)) =
      (polyOfBits (bitsN w reg) * X + polyOfBits [b]) %ₘ generator poly w := by
  have hdropped : (if 2 ^ (w - 1) ≤ reg then generator poly w else 0) %ₘ generator poly w = 0 := by
    split
    case isTrue => exact modByMonic_self (monic_generator poly w)
    case isFalse => exact zero_modByMonic _
  rw [← polyOfBits_crcShift hw hr, add_modByMonic, hdropped, add_zero, polyOfBits_bitsN_modByMonic]

theorem modByMonic_mul_add_modByMonic {g : (ZMod 2)[X]} (hg : g.Monic) (p q r : (ZMod 2)[X]) :
    (p %ₘ g * q + r) %ₘ g = (p * q + r) %ₘ g := by
  refine modByMonic_eq_of_dvd_sub hg ?_
  have hsub : p %ₘ g * q + r - (p * q + r) = (p %ₘ g - p) * q := by ring
  exact hsub ▸ (dvd_modByMonic_sub p g).mul_right q

/-- R105: shifting in is division of what the register and the sequence stand for together. -/
theorem polyOfBits_crcShiftin {poly w reg : Nat} (hw : 1 ≤ w) (hp : poly < 2 ^ w) (hr : reg < 2 ^ w)
    (s : List Bit) :
    polyOfBits (bitsN w (crcShiftin poly w reg s)) =
      (polyOfBits (bitsN w reg) * X ^ s.length + polyOfBits s) %ₘ generator poly w := by
  induction s generalizing reg with
  | nil => simp [polyOfBits, polyOfBits_bitsN_modByMonic]
  | cons b s ih =>
    have hs : polyOfBits (b :: s) = polyOfBits [b] * X ^ s.length + polyOfBits s := polyOfBits_append [b] s
    rw [crcShiftin_cons, ih (crcShift_lt hw hp hr b), polyOfBits_crcShift_modByMonic hw hr,
      modByMonic_mul_add_modByMonic (monic_generator poly w), hs, List.length_cons]
    ring_nf

theorem polyOfBits_crcShiftin_zero {poly w : Nat} (hw : 1 ≤ w) (hp : poly < 2 ^ w) (s : List Bit) :
    polyOfBits (bitsN w (crcShiftin poly w 0 s)) = polyOfBits s %ₘ generator poly w := by
  simp [polyOfBits_crcShiftin hw hp (Nat.two_pow_pos w)]

theorem polyOfBits_crcCompute {poly w : Nat} (hw : 1 ≤ w) (hp : poly < 2 ^ w) (s : List Bit) :
    polyOfBits (bitsN w (crcCompute poly w s)) = (polyOfBits s * X ^ w) %ₘ generator poly w := by
  rw [crcCompute_eq_crcShiftin, polyOfBits_crcShiftin_zero hw hp, polyOfBits_append, polyOfBits_replicate_false,
    List.length_replicate, add_zero]

/-! ## What the remainder gives (R107(e), R120, R121) -/

/-- The generator of polynomial 0 is `x^w`, which divides `S * x^w`. -/
theorem crcCompute_poly_zero {w : Nat} (hw : 1 ≤ w) (s : List Bit) : crcCompute 0 w s = 0 := by
  have hp : 0 < 2 ^ w := Nat.two_pow_pos w
  have hgenerator : generator 0 w = X ^ w := by simp [generator]
  refine eq_of_polyOfBits_bitsN_eq (crcCompute_lt hw hp s) hp ?_
  rw [polyOfBits_crcCompute hw hp, hgenerator, mul_self_modByMonic (monic_X_pow w), polyOfBits_bitsN_zero]

/-- The checksum cancels the remainder it is. -/
theorem crcCompute_crcAppend_crcCompute {poly w : Nat} (hw : 1 ≤ w) (hp : poly < 2 ^ w) (s : List Bit) :
    crcCompute poly w (crcAppend s (crcCompute poly w s) w) = 0 := by
  refine eq_of_polyOfBits_bitsN_eq (crcCompute_lt hw hp _) (Nat.two_pow_pos w) ?_
  have hcancel : polyOfBits (crcAppend s (crcCompute poly w s) w) %ₘ generator poly w = 0 := by
    rw [crcAppend, polyOfBits_append, bitsN_length, add_modByMonic, polyOfBits_bitsN_modByMonic,
      polyOfBits_crcCompute hw hp, CharTwo.add_self_eq_zero]
  rw [polyOfBits_crcCompute hw hp, mul_modByMonic, hcancel, zero_mul, zero_modByMonic, polyOfBits_bitsN_zero]

theorem crcCompute_zipWith_xor {poly w : Nat} (hw : 1 ≤ w) (hp : poly < 2 ^ w) {s t : List Bit}
    (hlen : s.length = t.length) :
    crcCompute poly w (List.zipWith (fun a b => a ^^ b) s t) = crcCompute poly w s ^^^ crcCompute poly w t := by
  refine eq_of_polyOfBits_bitsN_eq (crcCompute_lt hw hp _)
    (Nat.xor_lt_two_pow (crcCompute_lt hw hp s) (crcCompute_lt hw hp t)) ?_
  rw [polyOfBits_bitsN_xor, polyOfBits_crcCompute hw hp, polyOfBits_crcCompute hw hp, polyOfBits_crcCompute hw hp,
    polyOfBits_zipWith_xor hlen, add_mul, add_modByMonic]

end Polynomials

/-! ## The two push commands (R112, R113) -/

/-- `CRC_PUSH`, and `CRC_PUSHF` where the bits are also to go to OUT. -/
def pushInstr (echo : Bool) : Byte → Word64 → Instr :=
  match echo with
  | false => .crcPush
  | true => .crcPushf

section Push

variable (echo : Bool) (n : Byte) (bits : Word64) (s : State)

@[simp] theorem errorOf_pushInstr : errorOf (pushInstr echo n bits) s = pushError n bits s := by
  cases echo <;> rfl

@[simp] theorem registersOf_pushInstr :
    registersOf (pushInstr echo n bits) s = absorb (pushBits n bits) s := by
  cases echo <;> rfl

@[simp] theorem runsBits_emissionOf_pushInstr :
    runsBits (emissionOf (pushInstr echo n bits) s) = if echo then bitsN n.toNat bits.toNat else [] := by
  cases echo with
  | false => rfl
  | true => exact runsBits_runsOfBits _

theorem wf_pushInstr_iff : (pushInstr echo n bits).wf = true ↔ n.toNat ≤ 64 := by
  cases echo <;> exact decide_eq_true_iff

end Push

/-- What a push that passes its checks leaves in `CRC_REG`. -/
theorem toNat_crcReg_completed_pushInstr {s : State} (h : s.Inv) (hw : s.crcWidth ≠ 0) (echo : Bool) (n : Byte)
    (bits : Word64) :
    (completed (pushInstr echo n bits) s).crcReg.toNat =
      crcShiftin s.crcPoly.toNat s.crcWidth.toNat s.crcReg.toNat (bitsN n.toNat bits.toNat) := by
  rw [completed_crcReg, registersOf_pushInstr, absorb_crcReg_toNat h hw, pushBits]

theorem inv_completed {i : Instr} {s : State} (h : s.Inv) (herr : errorOf i s = none) : (completed i s).Inv :=
  inv_registersOf (i := i) h herr

theorem outBits_completed_of_no_emission {i : Instr} {s : State} (h : emissionOf i s = []) :
    (completed i s).outBits = s.outBits := by
  rw [completed_outBits, h, runsBits, List.append_nil]

/-! ## Words and checks of the CRC commands (R77, R109, R110, R112) -/

theorem rejectedWord_of_not_ok {w : CmdWord} (h : ∀ i, decode w ≠ .ok i) : RejectedWord w := by
  intro s rest hcmd
  obtain ⟨d, hd⟩ := decode_error_of_not_ok h
  rw [step_illegal hcmd hd, fail_eq_afterFailure]

theorem rejectedWord_encode {i : Instr} (h : i.wf ≠ true) : RejectedWord (encode i) := by
  refine rejectedWord_of_not_ok fun j hj => h ?_
  obtain ⟨hwf, hsame⟩ := (decode_ok_iff_wf_encode _ j).mp hj
  exact encode_injective hsame ▸ hwf

/-- A word of shape C0 is legal exactly when both its fields are zero (R71). -/
theorem fieldless_word {op : Opcode} {i : Instr} (hshape : op.shape = .c0)
    (hi : ∀ arg opd, op.withOperands arg opd = some i) (arg : Byte) (opd : Word64) :
    (decode (mkWord op.code arg opd) = .ok i ↔ arg = 0 ∧ opd = 0) ∧
    (¬ (arg = 0 ∧ opd = 0) → RejectedWord (mkWord op.code arg opd)) := by
  have hzero {j : Instr} (hj : decode (mkWord op.code arg opd) = .ok j) : arg = 0 ∧ opd = 0 := by
    obtain ⟨harg, hopd, -, -⟩ := (decode_mkWord_ok_iff op arg opd j).mp hj
    rw [hshape] at harg hopd
    exact ⟨harg rfl, hopd rfl⟩
  refine ⟨⟨hzero, ?_⟩, fun hne => rejectedWord_of_not_ok fun j hj => hne (hzero hj)⟩
  rintro ⟨rfl, rfl⟩
  exact (decode_mkWord_ok_iff op 0 0 i).mpr ⟨fun _ => rfl, fun _ => rfl, Nat.zero_le _, hi 0 0⟩

theorem cfgError_of_width {width : Byte} {s : State} (h : width.toNat = 0 ∨ s.params.wMax < width.toNat)
    (poly : Word64) : cfgError width poly s = some .config :=
  if_pos h

theorem cfgError_of_poly {width : Byte} {poly : Word64} {s : State}
    (hw : ¬ (width.toNat = 0 ∨ s.params.wMax < width.toNat)) (hp : 2 ^ width.toNat ≤ poly.toNat) :
    cfgError width poly s = some .range := by
  rw [cfgError, if_neg hw, if_pos hp]

theorem unconfiguredError_of_width_zero {s : State} (hw : s.crcWidth = 0) :
    unconfiguredError s = some .config :=
  if_pos hw

section PushChecks

variable {n : Byte} {s : State} (hn : n.toNat ≤ 64)
include hn

theorem pushError_of_width_zero (hw : s.crcWidth = 0) (bits : Word64) :
    pushError n bits s = some .config := by
  have hcount : ¬ pushMax < n.toNat := hn.not_gt
  rw [pushError, if_neg hcount, if_pos hw]

theorem pushError_of_range {bits : Word64} (hw : s.crcWidth ≠ 0) (hx : 2 ^ n.toNat ≤ bits.toNat) :
    pushError n bits s = some .range := by
  have hcount : ¬ pushMax < n.toNat := hn.not_gt
  rw [pushError, if_neg hcount, if_neg hw, if_pos hx]

theorem exec_pushInstr_of_width_zero (echo : Bool) (hw : s.crcWidth = 0) (bits : Word64) :
    exec (pushInstr echo n bits) s = .next (afterFailure .config s) :=
  exec_of_error (by rw [errorOf_pushInstr, pushError_of_width_zero hn hw])

theorem exec_pushInstr_of_range (echo : Bool) {bits : Word64} (hw : s.crcWidth ≠ 0)
    (hx : 2 ^ n.toNat ≤ bits.toNat) : exec (pushInstr echo n bits) s = .next (afterFailure .range s) :=
  exec_of_error (by rw [errorOf_pushInstr, pushError_of_range hn hw hx])

theorem errorOf_pushInstr_of_good (echo : Bool) {bits : Word64} (hw : s.crcWidth ≠ 0)
    (hx : bits.toNat < 2 ^ n.toNat) : errorOf (pushInstr echo n bits) s = none := by
  rw [errorOf_pushInstr, pushError_none_iff]
  exact ⟨hn, hw, hx⟩

end PushChecks

/-- The word of a push is legal exactly up to 64 bits (R77 step (3)). -/
theorem push_word (echo : Bool) (n : Byte) (bits : Word64) :
    (decode (encode (pushInstr echo n bits)) = .ok (pushInstr echo n bits) ↔ n.toNat ≤ 64) ∧
    (64 < n.toNat → RejectedWord (encode (pushInstr echo n bits))) := by
  refine ⟨(decode_encode_iff _).trans (wf_pushInstr_iff echo n bits), fun hn => rejectedWord_encode ?_⟩
  rw [Ne, wf_pushInstr_iff]
  exact hn.not_ge

/-! ## One push cut into two (R112) -/

section Join

variable {m n a b : Nat} (ha : a < 2 ^ m) (hb : b < 2 ^ n)
include ha hb

theorem val_bitsN_append_bitsN : val (bitsN m a ++ bitsN n b) = a * 2 ^ n + b := by
  rw [val_append, bitsN_length, val_bitsN, val_bitsN, Nat.mod_eq_of_lt ha, Nat.mod_eq_of_lt hb]

theorem join_lt_two_pow : a * 2 ^ n + b < 2 ^ (m + n) := by
  simpa [val_bitsN_append_bitsN ha hb] using val_lt (bitsN m a ++ bitsN n b)

theorem bitsN_join : bitsN (m + n) (a * 2 ^ n + b) = bitsN m a ++ bitsN n b := by
  simpa [val_bitsN_append_bitsN ha hb] using bitsN_val (bitsN m a ++ bitsN n b)

end Join

/-! ## The bits `CRC_REG` holds (R118) -/

theorem holdsBits_nil {s : State} (h : s.crcReg = 0) : HoldsBits s [] := by
  simp [HoldsBits, h]

theorem holdsBits_completed_pushInstr {s : State} {bits : List Bit} (h : s.Inv) (hw : s.crcWidth ≠ 0)
    (hb : HoldsBits s bits) (echo : Bool) (n : Byte) (x : Word64) :
    HoldsBits (completed (pushInstr echo n x) s) (bits ++ bitsN n.toNat x.toNat) := by
  unfold HoldsBits at hb ⊢
  rw [toNat_crcReg_completed_pushInstr h hw, hb, ← crcShiftin_append]
  simp

theorem cfgError_ne_none_iff (width : Byte) (poly : Word64) (s : State) :
    cfgError width poly s ≠ none ↔
      width.toNat = 0 ∨ s.params.wMax < width.toNat ∨ 2 ^ width.toNat ≤ poly.toNat := by
  rw [Ne, cfgError_none_iff]
  omega

theorem keepsChecksum_of_decode {s : State} {w : CmdWord} {i : Instr} (hd : decode w = .ok i)
    (hsreset : i ≠ .sreset) (hstart : i ≠ .crcStart)
    (hcfg : ∀ width poly, i = .crcCfg width poly → errorOf i s ≠ none) : KeepsChecksum s.params w := by
  refine ⟨by simpa [hd] using hsreset, by simpa [hd] using hstart, fun width poly h => ?_⟩
  obtain rfl : i = .crcCfg width poly := by simpa [hd] using h
  exact (cfgError_ne_none_iff width poly s).mp (hcfg width poly rfl)

theorem keepsChecksum_of_decode_error {w : CmdWord} {d : DecodeError} (hd : decode w = .error d) (p : Params) :
    KeepsChecksum p w := by
  simp [KeepsChecksum, hd]

theorem keepsChecksum_of_error {s : State} {w : CmdWord} {i : Instr} {e : Err} (hd : decode w = .ok i)
    (herr : errorOf i s = some e) : KeepsChecksum s.params w := by
  have hne : errorOf i s ≠ none := by simp [herr]
  exact keepsChecksum_of_decode hd (fun h => hne (h ▸ rfl)) (fun h => hne (h ▸ rfl)) (fun _ _ _ => hne)

theorem absorbedBits_of_decode_push {echo : Bool} {w : CmdWord} {n : Byte} {x : Word64}
    (hd : decode w = .ok (pushInstr echo n x)) :
    absorbedBits w = if x.toNat < 2 ^ n.toNat then bitsN n.toNat x.toNat else [] := by
  cases echo <;> simp [absorbedBits, hd, pushInstr]

/-- Only the pushes absorb. -/
theorem absorbedBits_of_not_push {w : CmdWord} (h : ∀ echo n x, decode w ≠ .ok (pushInstr echo n x)) :
    absorbedBits w = [] := by
  unfold absorbedBits
  split
  case h_1 n x hd => exact absurd hd (h false n x)
  case h_2 n x hd => exact absurd hd (h true n x)
  case h_3 => rfl

/-- On a configured unit a push that fails is out of range, so it absorbs nothing. -/
theorem absorbedBits_of_error {s : State} {w : CmdWord} {i : Instr} {e : Err} (hw : s.crcWidth ≠ 0)
    (hd : decode w = .ok i) (herr : errorOf i s = some e) : absorbedBits w = [] := by
  by_cases hpush : ∃ echo n x, i = pushInstr echo n x
  · obtain ⟨echo, n, x, rfl⟩ := hpush
    have hn : n.toNat ≤ 64 := (wf_pushInstr_iff echo n x).mp ((decode_ok_iff_wf_encode w _).mp hd).1
    have hne : pushError n x s ≠ none := by simp [← errorOf_pushInstr echo, herr]
    rw [absorbedBits_of_decode_push hd, if_neg]
    exact fun hx => hne ((pushError_none_iff n x s).mpr ⟨hn, hw, hx⟩)
  · refine absorbedBits_of_not_push fun echo n x h => hpush ⟨echo, n, x, ?_⟩
    simpa [hd] using h

theorem bitsAfter_of_keepsChecksum {s : State} {w : CmdWord} (h : KeepsChecksum s.params w) (bits : List Bit) :
    bitsAfter s bits w = if s.crcWidth = 0 then bits else bits ++ absorbedBits w := by
  obtain ⟨hsreset, hstart, hcfg⟩ := h
  unfold bitsAfter
  split
  case h_1 hd => exact absurd hd hsreset
  case h_2 hd => exact absurd hd hstart
  case h_3 width poly hd =>
    have hfails : firstError (.crcCfg width poly) s ≠ none :=
      (cfgError_ne_none_iff width poly s).mpr (hcfg width poly hd)
    simp [hfails, absorbedBits, hd]
  case h_4 => rfl

/-- A word that neither restarts the checksum nor absorbs. -/
theorem bitsAfter_eq_self {s : State} {w : CmdWord} (h : KeepsChecksum s.params w)
    (habsorb : s.crcWidth ≠ 0 → absorbedBits w = []) (bits : List Bit) : bitsAfter s bits w = bits := by
  rw [bitsAfter_of_keepsChecksum h]
  split
  case isTrue => rfl
  case isFalse hw => rw [habsorb hw, List.append_nil]

theorem holdsBits_of_decode_push {s : State} {bits : List Bit} {w : CmdWord} {echo : Bool} {n : Byte} {x : Word64}
    (h : s.Inv) (hb : HoldsBits s bits) (hd : decode w = .ok (pushInstr echo n x))
    (herr : errorOf (pushInstr echo n x) s = none) :
    HoldsBits (completed (pushInstr echo n x) s) (bitsAfter s bits w) := by
  rw [errorOf_pushInstr] at herr
  obtain ⟨-, hw, hx⟩ := (pushError_none_iff n x s).mp herr
  have hkeeps : KeepsChecksum s.params w := by
    cases echo <;> exact keepsChecksum_of_decode (s := s) hd nofun nofun nofun
  rw [bitsAfter_of_keepsChecksum hkeeps, if_neg hw, absorbedBits_of_decode_push hd, if_pos hx]
  exact holdsBits_completed_pushInstr h hw hb echo n x

/-- R118 for a command that passes its checks. -/
theorem holdsBits_completed {s : State} {bits : List Bit} {w : CmdWord} {i : Instr} (h : s.Inv)
    (hb : HoldsBits s bits) (hd : decode w = .ok i) (herr : errorOf i s = none) :
    HoldsBits (completed i s) (bitsAfter s bits w) := by
  cases i with
  | sreset => simpa [bitsAfter, hd] using holdsBits_nil rfl
  | crcStart => simpa [bitsAfter, hd] using holdsBits_nil rfl
  | crcCfg width poly =>
    have hok : firstError (.crcCfg width poly) s = none := herr
    simpa [bitsAfter, hd, hok] using holdsBits_nil rfl
  | crcPush n x => exact holdsBits_of_decode_push (echo := false) h hb hd herr
  | crcPushf n x => exact holdsBits_of_decode_push (echo := true) h hb hd herr
  | _ =>
    have hsame := bitsAfter_eq_self (keepsChecksum_of_decode (s := s) hd nofun nofun nofun)
      (fun _ => absorbedBits_of_not_push fun echo n x => by cases echo <;> simp [hd, pushInstr]) bits
    rw [hsame]
    exact hb

/-- R118: one step, on any word. -/
theorem holdsBits_step {s t : State} {bits : List Bit} {w : CmdWord} {rest : List CmdWord} (h : s.Inv)
    (hb : HoldsBits s bits) (hcmd : s.cmd = w :: rest) (hstep : step s = .next t) :
    HoldsBits t (bitsAfter s bits w) := by
  cases hd : decode w with
  | error d =>
    rw [step_illegal hcmd hd, fail_eq_afterFailure] at hstep
    cases hstep
    have hsame := bitsAfter_eq_self (keepsChecksum_of_decode_error hd s.params)
      (fun _ => absorbedBits_of_not_push (by simp [hd])) bits
    rw [hsame]
    exact hb
  | ok i =>
    rw [step_legal hcmd hd] at hstep
    obtain ⟨e, herr, rfl⟩ | ⟨herr, rfl⟩ := exec_next_cases hstep
    · have hsame := bitsAfter_eq_self (s := { s with cmd := rest }) (keepsChecksum_of_error hd herr)
        (fun hw => absorbedBits_of_error hw hd herr) bits
      have hkept : HoldsBits (afterFailure e { s with cmd := rest }) bits := hb
      rw [← hsame] at hkept
      exact hkept
    · exact holdsBits_completed (s := { s with cmd := rest }) h hb hd herr

/-! ## Runs of commands (R30, R59) -/

theorem run_succ {s t : State} (h : step s = .next t) (k : Nat) :
    Sys2Proof.core.run (k + 1) s = Sys2Proof.core.run k t := by
  have hcore : Sys2Proof.core.step s = .next t := h
  simp only [Host.Core.run, hcore]

theorem runWords_cons {s t : State} {w : CmdWord} {ws : List CmdWord}
    (h : step { s with cmd := w :: ws } = .next t) (hcmd : t.cmd = ws) :
    runWords (w :: ws) s = runWords ws t := by
  subst hcmd
  exact run_succ h t.cmd.length

theorem errorOf_accept (i : Instr) (s : State) (rest : List CmdWord) :
    errorOf i { s with cmd := rest } = errorOf i s := by
  cases i <;> rfl

theorem completed_accept (i : Instr) (s : State) (rest : List CmdWord) :
    completed i { s with cmd := rest } = { completed i s with cmd := rest } := by
  cases i <;> rfl

/-- A run whose first word is that of a command which passes its checks. -/
theorem runWords_encode_cons {i : Instr} {s : State} (hwf : i.wf = true) (herr : errorOf i s = none)
    (ws : List CmdWord) : runWords (encode i :: ws) s = runWords ws (completed i s) := by
  have hstep : step { s with cmd := encode i :: ws } = .next { completed i s with cmd := ws } := by
    rw [step_legal rfl ((decode_encode_iff i).mpr hwf), ← completed_accept]
    exact exec_of_no_error ((errorOf_accept i s ws).trans herr)
  have hrest : runWords ws { completed i s with cmd := ws } = runWords ws (completed i s) := rfl
  rw [runWords_cons hstep rfl, hrest]

/-! ## A checksum in progress (R118) -/

/-- R118: the unit is configured with `width` and `poly`, and `CRC_REG` holds `bits`. -/
structure CrcStream (width : Byte) (poly : Word64) (bits : List Bit) (s : State) : Prop where
  inv : s.Inv
  configured : s.crcWidth ≠ 0
  width_eq : s.crcWidth = width
  poly_eq : s.crcPoly = poly
  holds : HoldsBits s bits

section Stream

variable {width : Byte} {poly : Word64} {bits : List Bit} {s : State}

theorem CrcStream.accept (h : CrcStream width poly bits s) (rest : List CmdWord) :
    CrcStream width poly bits { s with cmd := rest } :=
  ⟨h.inv, h.configured, h.width_eq, h.poly_eq, h.holds⟩

/-- R110: from any state, configured or not. -/
theorem crcStream_completed_crcCfg (hw : width ≠ 0) (hmax : width.toNat ≤ s.params.wMax)
    (hp : poly.toNat < 2 ^ width.toNat) : CrcStream width poly [] (completed (.crcCfg width poly) s) :=
  ⟨⟨hmax, hp, Nat.two_pow_pos _, Nat.two_pow_pos _⟩, hw, rfl, rfl, holdsBits_nil rfl⟩

/-- R104: any register is what its own bits, shifted in from 0, leave. -/
theorem crcStream_of_inv (h : s.Inv) (hw : s.crcWidth ≠ 0) :
    CrcStream s.crcWidth s.crcPoly (bitsN s.crcWidth.toNat s.crcReg.toNat) s := by
  refine ⟨h, hw, rfl, rfl, ?_⟩
  obtain ⟨-, -, hreg, -⟩ := h
  rw [HoldsBits, crcShiftin_of_fits (k := 0) (by simp) (by simp), val_bitsN, Nat.mod_eq_of_lt hreg, zero_mul,
    zero_add]

theorem CrcStream.completed_crcStart (h : CrcStream width poly bits s) :
    CrcStream width poly [] (completed .crcStart s) :=
  ⟨inv_completed h.inv rfl, h.configured, h.width_eq, h.poly_eq, holdsBits_nil rfl⟩

theorem CrcStream.errorOf_pushInstr (h : CrcStream width poly bits s) (echo : Bool) {n : Byte} {x : Word64}
    (hx : GoodPush (n, x)) : errorOf (pushInstr echo n x) s = none :=
  errorOf_pushInstr_of_good hx.1 echo h.configured hx.2

theorem CrcStream.completed_pushInstr (h : CrcStream width poly bits s) (echo : Bool) {n : Byte} {x : Word64}
    (hx : GoodPush (n, x)) :
    CrcStream width poly (bits ++ bitsN n.toNat x.toNat) (completed (pushInstr echo n x) s) := by
  refine ⟨inv_completed h.inv (h.errorOf_pushInstr echo hx), ?_, ?_, ?_,
    holdsBits_completed_pushInstr h.inv h.configured h.holds echo n x⟩
  · simpa using h.configured
  · simpa using h.width_eq
  · simpa using h.poly_eq

theorem CrcStream.unconfiguredError (h : CrcStream width poly bits s) : unconfiguredError s = none :=
  (unconfiguredError_none_iff s).mpr h.configured

theorem CrcStream.completed_crcFinal (h : CrcStream width poly bits s) :
    CrcStream width poly bits (completed .crcFinal s) :=
  ⟨inv_completed (i := .crcFinal) h.inv h.unconfiguredError, h.configured, h.width_eq, h.poly_eq, h.holds⟩

/-- R104: flushing the register that holds the bits is computing their checksum. -/
theorem CrcStream.toNat_flush (h : CrcStream width poly bits s) :
    (flush s).toNat = crcCompute poly.toNat width.toNat bits := by
  have hholds := h.holds
  unfold HoldsBits at hholds
  rw [flush_toNat h.inv h.configured, hholds, ← crcShiftin_append, ← crcCompute_eq_crcShiftin, h.poly_eq,
    h.width_eq]

/-! ## The streaming law (R118) -/

theorem config_kept {s t : State} {w : CmdWord} {rest : List CmdWord} (hkeeps : KeepsChecksum s.params w)
    (hcmd : s.cmd = w :: rest) (hstep : step s = .next t) :
    t.crcWidth = s.crcWidth ∧ t.crcPoly = s.crcPoly := by
  obtain ⟨hsreset, -, hcfg⟩ := hkeeps
  obtain ⟨e, -, rfl⟩ | ⟨i, hd, herr, rfl⟩ := step_next_cases hcmd hstep
  · exact ⟨rfl, rfl⟩
  · by_contra hchange
    obtain rfl | hi := writer_of_config_change (not_and_or.mp hchange)
    · exact hsreset hd
    · rw [hi] at hd herr
      exact (cfgError_ne_none_iff _ _ _).mpr (hcfg _ _ hd) herr

theorem CrcStream.step {t : State} {w : CmdWord} {rest : List CmdWord} (h : CrcStream width poly bits s)
    (hkeeps : KeepsChecksum s.params w) (hcmd : s.cmd = w :: rest) (hstep : Machine.step s = .next t) :
    CrcStream width poly (bits ++ absorbedBits w) t := by
  obtain ⟨hwidth, hpoly⟩ := config_kept hkeeps hcmd hstep
  have hholds := holdsBits_step h.inv h.holds hcmd hstep
  rw [bitsAfter_of_keepsChecksum hkeeps, if_neg h.configured] at hholds
  exact ⟨step_keeps_inv h.inv hstep, hwidth ▸ h.configured, hwidth.trans h.width_eq, hpoly.trans h.poly_eq, hholds⟩

theorem CrcStream.runWords {ws : List CmdWord} (h : CrcStream width poly bits s)
    (hkeeps : ∀ w ∈ ws, KeepsChecksum s.params w) :
    ∃ t, Machine.runWords ws s = .next t ∧ CrcStream width poly (bits ++ ws.flatMap absorbedBits) t := by
  induction ws generalizing s bits with
  | nil =>
    refine ⟨{ s with cmd := [] }, rfl, ?_⟩
    rw [List.flatMap_nil, List.append_nil]
    exact h.accept []
  | cons w ws ih =>
    obtain ⟨t, r, e, hstep, hcmd, hparams, -⟩ :=
      Proofs.stepAnswersOneResponse { s with cmd := w :: ws } w ws rfl
    obtain ⟨u, hrun, hu⟩ := ih ((h.accept (w :: ws)).step (hkeeps w List.mem_cons_self) rfl hstep)
      (fun v hv => hparams ▸ hkeeps v (List.mem_cons_of_mem w hv))
    rw [List.append_assoc, ← List.flatMap_cons] at hu
    exact ⟨u, (runWords_cons hstep hcmd).trans hrun, hu⟩

/-! ## The recipes (R119) -/

/-- A list of good pushes runs through, whatever commands follow. -/
theorem CrcStream.runWords_pushes (echo : Bool) {ds : List (Byte × Word64)} (h : CrcStream width poly bits s)
    (hds : ∀ d ∈ ds, GoodPush d) :
    ∃ t, (∀ ws, Machine.runWords (ds.map (fun d => encode (pushInstr echo d.1 d.2)) ++ ws) s =
        Machine.runWords ws t) ∧
      CrcStream width poly (bits ++ pushedBits ds) t ∧
      t.outBits = s.outBits ++ if echo then pushedBits ds else [] := by
  induction ds generalizing s bits with
  | nil => exact ⟨s, fun _ => rfl, by simpa [pushedBits] using h, by simp [pushedBits]⟩
  | cons d ds ih =>
    have hd : GoodPush (d.1, d.2) := hds d List.mem_cons_self
    obtain ⟨t, hrun, hstream, hout⟩ := ih (h.completed_pushInstr echo hd)
      (fun c hc => hds c (List.mem_cons_of_mem d hc))
    have hbits : pushedBits (d :: ds) = bitsN d.1.toNat d.2.toNat ++ pushedBits ds := List.flatMap_cons
    refine ⟨t, fun ws => ?_, ?_, ?_⟩
    · rw [List.map_cons, List.cons_append,
        runWords_encode_cons ((wf_pushInstr_iff ..).mpr hd.1) (h.errorOf_pushInstr echo hd), hrun]
    · rwa [hbits, ← List.append_assoc]
    · rw [hout, hbits]
      cases echo <;> simp

/-- `CRC_START` and the pushes of a recipe. -/
theorem CrcStream.runWords_crcStart_pushes (echo : Bool) {ds : List (Byte × Word64)}
    (h : CrcStream width poly bits s) (hds : ∀ d ∈ ds, GoodPush d) :
    ∃ t, (∀ ws, Machine.runWords ([encode .crcStart] ++
          ds.map (fun d => encode (pushInstr echo d.1 d.2)) ++ ws) s = Machine.runWords ws t) ∧
      CrcStream width poly (pushedBits ds) t ∧
      t.outBits = s.outBits ++ if echo then pushedBits ds else [] := by
  obtain ⟨t, hrun, hstream, hout⟩ := h.completed_crcStart.runWords_pushes echo hds
  refine ⟨t, fun ws => (runWords_encode_cons (i := .crcStart) rfl rfl _).trans (hrun ws), hstream, ?_⟩
  rw [hout, outBits_completed_of_no_emission rfl]

theorem CrcStream.runWords_crcFinal (h : CrcStream width poly bits s) :
    ∃ t c, Machine.runWords [encode .crcFinal] s = .next t ∧ CrcStream width poly bits t ∧
      c.toNat = crcCompute poly.toNat width.toNat bits ∧ t.rsp.getLast? = some ⟨.ok, c⟩ ∧
      t.outBits = s.outBits := by
  refine ⟨{ completed .crcFinal s with cmd := [] }, flush s, ?_, h.completed_crcFinal.accept [], h.toNat_flush, ?_,
    rfl⟩
  · exact runWords_encode_cons (i := .crcFinal) rfl h.unconfiguredError []
  · simp [valueOf]

/-- The recipe of R119 that emits nothing, from `CRC_START` on. -/
theorem CrcStream.runWords_checksum {ds : List (Byte × Word64)} (h : CrcStream width poly bits s)
    (hds : ∀ d ∈ ds, GoodPush d) :
    ∃ t c, Machine.runWords ([encode .crcStart] ++ ds.map (fun d => encode (.crcPush d.1 d.2)) ++
        [encode .crcFinal]) s = .next t ∧
      CrcStream width poly (pushedBits ds) t ∧
      c.toNat = crcCompute poly.toNat width.toNat (pushedBits ds) ∧ t.rsp.getLast? = some ⟨.ok, c⟩ ∧
      t.outBits = s.outBits := by
  obtain ⟨t, hpushes, ht, hout⟩ := h.runWords_crcStart_pushes false hds
  obtain ⟨u, c, hfinal, hu, hc, hlast, hkept⟩ := ht.runWords_crcFinal
  exact ⟨u, c, (hpushes _).trans hfinal, hu, hc, hlast, by simpa [hkept] using hout⟩

theorem CrcStream.runWords_crcAppend (h : CrcStream width poly bits s) :
    ∃ t, Machine.runWords [encode .crcAppend] s = .next t ∧
      t.outBits = s.outBits ++ bitsN width.toNat (crcCompute poly.toNat width.toNat bits) := by
  refine ⟨{ completed .crcAppend s with cmd := [] },
    runWords_encode_cons (i := .crcAppend) rfl h.unconfiguredError [], ?_⟩
  rw [outBits_accept, completed_outBits, emissionOf, checksumRuns, runsBits_runsOfBits, h.toNat_flush, h.width_eq]

end Stream

end Sys2Proof.Machine

namespace Sys2Proof.Proofs

open Sys2Proof.Machine Sys2Proof.Claims

/-- Settles O57: a failed word absorbs nothing, a push that passes its checks shifts its bits in after those already
there, and the three restarting commands set `CRC_REG` to 0. -/
theorem crcRegisterHoldsAbsorbedBits : Obligations.CrcRegisterHoldsAbsorbedBits := by
  refine ⟨fun p => holdsBits_nil rfl, fun s t bits h hb hstep => ⟨step_keeps_inv h hstep, fun hcmd => ?_, ?_⟩⟩
  · rw [step_idle hcmd] at hstep
    cases hstep
    exact hb
  · exact fun w rest hcmd => holdsBits_step h hb hcmd hstep

/-- Settles O16: the three outcomes of `cfgError`. -/
theorem crcCfgLoadsSpec : Obligations.CrcCfgLoadsSpec := by
  intro s width poly
  have toNat_ne (h : width ≠ 0) : width.toNat ≠ 0 := BitVec.toNat_ne.mp h
  refine ⟨(decode_encode_iff (.crcCfg width poly)).mpr rfl, fun h => ?_, fun hw hmax hp => ?_, fun hw hmax hp => ?_⟩
  · exact exec_of_error (cfgError_of_width (h.imp_left (· ▸ rfl)) poly)
  · have hwidth : ¬ (width.toNat = 0 ∨ s.params.wMax < width.toNat) := by
      have := toNat_ne hw
      omega
    exact exec_of_error (cfgError_of_poly hwidth hp)
  · exact exec_of_no_error ((cfgError_none_iff width poly s).mpr ⟨toNat_ne hw, hmax, hp⟩)

/-- Settles O17: `CRC_START` has no check. -/
theorem crcStartZeroesRegister : Obligations.CrcStartZeroesRegister :=
  ⟨fun _ => exec_of_no_error rfl, fieldless_word (op := .crcStart) rfl (fun _ _ => rfl)⟩

/-- Settles O18: `CRC_WIDTH` 0 is the first error that applies to a data command. -/
theorem crcDataNeedsConfiguration : Obligations.CrcDataNeedsConfiguration :=
  fun _ _ bits hw hn =>
    ⟨exec_pushInstr_of_width_zero hn false hw bits, exec_pushInstr_of_width_zero hn true hw bits,
      exec_of_error (unconfiguredError_of_width_zero hw), exec_of_error (unconfiguredError_of_width_zero hw),
      exec_of_no_error rfl⟩

/-- Settles O19: the checks in R206's order, then `absorb`, which cuts where the operand's bits are cut. -/
theorem crcPushAbsorbsBits : Obligations.CrcPushAbsorbsBits := by
  refine ⟨fun s n bits => ?_, fun s m n l a b c h hw hl hmax ha hb hc => ?_⟩
  · obtain ⟨hlegal, hillegal⟩ := push_word false n bits
    refine ⟨hlegal, hillegal, fun hn hw => exec_pushInstr_of_width_zero hn false hw bits,
      fun hn hw hx => exec_pushInstr_of_range hn false hw hx, fun h hn hw hx => ?_⟩
    exact ⟨_, exec_of_no_error (errorOf_pushInstr_of_good hn false hw hx),
      toNat_crcReg_completed_pushInstr h hw false n bits, rfl⟩
  · have hfirst : errorOf (pushInstr false m a) s = none := errorOf_pushInstr_of_good (by omega) false hw ha
    have hc_lt : c.toNat < 2 ^ l.toNat := by
      rw [hc, hl]
      exact join_lt_two_pow ha hb
    refine ⟨completed (pushInstr false m a) s, completed (pushInstr false n b) (completed (pushInstr false m a) s),
      completed (pushInstr false l c) s, exec_of_no_error hfirst,
      exec_of_no_error (errorOf_pushInstr_of_good (by omega) false hw hb),
      exec_of_no_error (errorOf_pushInstr_of_good hmax false hw hc_lt), BitVec.eq_of_toNat_eq ?_⟩
    rw [toNat_crcReg_completed_pushInstr (inv_completed h hfirst) hw, toNat_crcReg_completed_pushInstr h hw,
      toNat_crcReg_completed_pushInstr h hw, hl, hc, bitsN_join ha hb, crcShiftin_append]
    rfl

/-- Settles O20: as `CRC_PUSH`, and the emission is the same bits. -/
theorem crcPushfAbsorbsAndEmits : Obligations.CrcPushfAbsorbsAndEmits := by
  intro s n bits
  obtain ⟨hlegal, hillegal⟩ := push_word true n bits
  refine ⟨hlegal, hillegal, fun hn hw => exec_pushInstr_of_width_zero hn true hw bits,
    fun hn hw hx => exec_pushInstr_of_range hn true hw hx, fun h hn hw hx => ?_⟩
  refine ⟨completed (pushInstr true n bits) s, exec_of_no_error (errorOf_pushInstr_of_good hn true hw hx),
    toNat_crcReg_completed_pushInstr h hw true n bits, ?_, rfl⟩
  simp

/-- Settles O21: the flush is stored and returned whole, since it is below `2^CRC_WIDTH`. -/
theorem crcFinalReturnsFlush : Obligations.CrcFinalReturnsFlush :=
  ⟨fun _ hw => exec_of_error (unconfiguredError_of_width_zero hw),
    fun s h hw => ⟨flush s, flush_toNat h hw, flush_lt h hw,
      exec_of_no_error ((unconfiguredError_none_iff s).mpr hw)⟩,
    fieldless_word (op := .crcFinal) rfl (fun _ _ => rfl)⟩

/-- Settles O22: as `CRC_FINAL`, and the emission is the flush in `CRC_WIDTH` bits. -/
theorem crcAppendEmitsFlush : Obligations.CrcAppendEmitsFlush := by
  refine ⟨fun _ hw => exec_of_error (unconfiguredError_of_width_zero hw), fun s h hw => ?_,
    fieldless_word (op := .crcAppend) rfl (fun _ _ => rfl)⟩
  refine ⟨flush s, _, flush_toNat h hw, exec_of_no_error ((unconfiguredError_none_iff s).mpr hw), ?_, rfl⟩
  simp [emissionOf, checksumRuns]

/-- Settles O36: below the top bit the register is its own remainder by `2^(w-1)`. -/
theorem crcShiftIsDivisionStep : Obligations.CrcShiftIsDivisionStep :=
  fun _ _ _ b hw hp hr => ⟨crcShift_eq hw hr b, crcShift_lt hw hp hr b⟩

/-- Settles O37: the register is not full while the seed's bits are shifted in. -/
theorem crcComputeShiftsFromZero : Obligations.CrcComputeShiftsFromZero :=
  fun poly w s _ _ => crcCompute_eq_crcShiftin poly w s

/-- Settles O38: a step subtracts the generator when the top bit is set. -/
theorem crcIsPolynomialRemainder : Obligations.CrcIsPolynomialRemainder :=
  fun _ _ hw hp => ⟨fun _ b hr => polyOfBits_crcShift_modByMonic hw hr b,
    fun s => ⟨polyOfBits_crcShiftin_zero hw hp s, polyOfBits_crcCompute hw hp s⟩⟩

/-- Settles O39: a register of 0 absorbs zeros unchanged; polynomial 0 divides evenly; width 1 XORs the bits. -/
theorem crcEdgeCases : Obligations.CrcEdgeCases :=
  ⟨fun poly w hw _ => ⟨crcCompute_replicate_false poly w 0, crcCompute_replicate_false poly w,
    crcCompute_singleton_true hw, crcCompute_false_cons poly w⟩,
    fun _ s hw => crcCompute_poly_zero hw s, crcCompute_one_one⟩

/-- Settles O40: the step law of O57 along the list, then the flush of what `CRC_REG` holds. -/
theorem crcStreaming : Obligations.CrcStreaming := by
  intro s ws h hw hreg hkeeps
  have hstart : CrcStream s.crcWidth s.crcPoly [] s := ⟨h, hw, rfl, rfl, holdsBits_nil hreg⟩
  obtain ⟨t, hrun, ht⟩ := hstart.runWords hkeeps
  have hholds := ht.holds
  rw [HoldsBits, ht.width_eq, ht.poly_eq] at hholds
  exact ⟨t, completed .crcFinal t, completed .crcAppend t, flush t, hrun, ht.width_eq, ht.poly_eq, hholds,
    ht.toNat_flush, exec_of_no_error ht.unconfiguredError, rfl, exec_of_no_error ht.unconfiguredError, rfl⟩

/-- Settles O41: `CRC_CFG` opens a stream from any state, the pushes fill it, the last command flushes it. -/
theorem crcRecipes : Obligations.CrcRecipes := by
  intro s width poly ds hw hmax hp hds
  have hcfg : errorOf (.crcCfg width poly) s = none :=
    (cfgError_none_iff width poly s).mpr ⟨BitVec.toNat_ne.mp hw, hmax, hp⟩
  have hstream : CrcStream width poly [] (completed (.crcCfg width poly) s) :=
    crcStream_completed_crcCfg hw hmax hp
  have hrun := runWords_encode_cons (i := .crcCfg width poly) rfl hcfg
  constructor
  · obtain ⟨t, c, hchecksum, -, hc, hlast, hout⟩ := hstream.runWords_checksum hds
    exact ⟨t, c, (hrun _).trans hchecksum, hc, hlast, hout.trans (outBits_completed_of_no_emission rfl)⟩
  · obtain ⟨t, hpushes, ht, hout⟩ := hstream.runWords_crcStart_pushes true hds
    obtain ⟨u, happend, hadded⟩ := ht.runWords_crcAppend
    refine ⟨u, (hrun _).trans ((hpushes _).trans happend), ?_⟩
    rw [hadded, hout, outBits_completed_of_no_emission rfl, if_pos rfl, crcAppend, List.append_assoc]

/-- Settles O42: the second run pushes the data and its checksum, whose remainder is 0. -/
theorem crcIntegrity : Obligations.CrcIntegrity := by
  refine ⟨fun poly w b hw hp => crcCompute_crcAppend_crcCompute hw hp b, fun s ds h hw hds => ?_⟩
  have hwidth : 1 ≤ s.crcWidth.toNat := width_pos hw
  have ⟨_, hpoly, _, _⟩ := h
  obtain ⟨t, c, hfirst, ht, hc, hlast, -⟩ := (crcStream_of_inv h hw).runWords_checksum hds
  have hpush : GoodPush (s.crcWidth, c) := ⟨h.width_le, hc ▸ crcCompute_lt hwidth hpoly _⟩
  have hds' : ∀ d ∈ ds ++ [(s.crcWidth, c)], GoodPush d :=
    List.forall_mem_append.mpr ⟨hds, by simpa using hpush⟩
  obtain ⟨u, z, hsecond, -, hz, hlast', -⟩ := ht.runWords_checksum hds'
  have happended : pushedBits (ds ++ [(s.crcWidth, c)]) =
      crcAppend (pushedBits ds) (crcCompute s.crcPoly.toNat s.crcWidth.toNat (pushedBits ds)) s.crcWidth.toNat := by
    simp [pushedBits, crcAppend, hc]
  have hzero : z = 0 := by
    rw [happended, crcCompute_crcAppend_crcCompute hwidth hpoly] at hz
    exact BitVec.eq_of_toNat_eq hz
  exact ⟨t, u, c, hfirst, hlast, by simpa using hsecond, hzero ▸ hlast'⟩

/-- Settles O43: both sides have the same remainder. -/
theorem crcIsLinear : Obligations.CrcIsLinear :=
  fun _ _ _ _ hw hp hlen => crcCompute_zipWith_xor hw hp hlen

end Sys2Proof.Proofs
end

section
/-! PROOFS of the statements of `41_vli.md`: the rows as value ranges, a row's code as a function of its `x` bits, and
the reference decoder as that function's inverse. -/

namespace Sys2Proof.Machine

/-! ## Bit sequences: order, cutting, leading ones -/

/-- Sequences of equal length are compared first by what stands in front. -/
theorem append_lt_append_iff {s s' t t' : List Bit} (hlen : s.length = s'.length) :
    s ++ t < s' ++ t' ↔ s < s' ∨ s = s' ∧ t < t' := by
  induction s generalizing s' with
  | nil => simp [List.length_eq_zero_iff.mp hlen.symm]
  | cons a s ih =>
    cases s' with
    | nil => cases hlen
    | cons b s' =>
      simp only [List.cons_append, List.cons_lt_cons_iff, ih (Nat.succ.inj hlen), List.cons.injEq]
      tauto

theorem lt_of_val_lt {s t : List Bit} (hlen : s.length = t.length) (hval : val s < val t) : s < t := by
  induction s generalizing t with
  | nil => simp [List.length_eq_zero_iff.mp hlen.symm] at hval
  | cons b s ih =>
    cases t with
    | nil => cases hlen
    | cons c t =>
      have hlen' : s.length = t.length := Nat.succ.inj hlen
      have hs := val_lt s
      have ht := val_lt t
      rw [hlen'] at hs
      simp only [val, hlen'] at hval
      have hhead : b < c ∨ b = c ∧ val s < val t := by cases b <;> cases c <;> simp at hval ⊢ <;> omega
      exact List.cons_lt_cons_iff.mpr (hhead.imp_right fun ⟨hbc, hrest⟩ => ⟨hbc, ih hlen' hrest⟩)

theorem bitsN_lt_bitsN {n v v' : Nat} (h : v < v') (hv' : v' < 2 ^ n) : bitsN n v < bitsN n v' :=
  lt_of_val_lt (by simp) (by rwa [val_bitsN, val_bitsN, Nat.mod_eq_of_lt hv', Nat.mod_eq_of_lt (h.trans hv')])

theorem bitsN_add (m n v : Nat) : bitsN (m + n) v = bitsN m (v >>> n) ++ bitsN n v := by
  induction m with
  | zero => simp [bitsN]
  | succ m ih => rw [Nat.add_right_comm, bitsN, ih, bitsN, Nat.testBit_shiftRight, Nat.add_comm n m, List.cons_append]

@[simp] theorem leadingOnes_replicate_append_false (c : Nat) (s : List Bit) :
    leadingOnes (List.replicate c true ++ false :: s) = c := by
  induction c with
  | zero => rfl
  | succ c ih => simp [List.replicate_succ, leadingOnes, ih]

theorem leadingOnes_le (s : List Bit) : leadingOnes s ≤ s.length := by
  induction s with
  | nil => exact le_rfl
  | cons b s ih =>
    cases b with
    | false => exact Nat.zero_le _
    | true => exact Nat.succ_le_succ ih

theorem eq_replicate_append_of_leadingOnes {s : List Bit} {c : Nat} (h : leadingOnes s = c) (hc : c < s.length) :
    s = List.replicate c true ++ false :: s.drop (c + 1) := by
  induction s generalizing c with
  | nil => cases hc
  | cons b s ih =>
    cases b with
    | false => subst h; rfl
    | true =>
      subst h
      simpa [leadingOnes, List.replicate_succ] using ih rfl (Nat.lt_of_succ_lt_succ hc)

theorem replicate_append_false_lt {c d : Nat} (h : c < d) (s t : List Bit) :
    List.replicate c true ++ false :: s < List.replicate d true ++ t := by
  obtain ⟨k, rfl⟩ := Nat.exists_eq_add_of_lt h
  rw [Nat.add_assoc, List.replicate_add, List.append_assoc, List.replicate_succ]
  exact List.append_left_lt (List.cons_lt_cons_iff.mpr (.inl (by decide)))

theorem val_replicate_true (n : Nat) : val (List.replicate n true) = 2 ^ n - 1 := by
  induction n with
  | zero => rfl
  | succ n ih =>
    have hpos : 0 < 2 ^ n := Nat.two_pow_pos n
    rw [List.replicate_succ, val, ih, List.length_replicate, pow_succ, Bool.toNat_true]
    omega

/-! ## The rows as value ranges (R141, R142) -/

theorem vliBudget_mono {m n : Nat} (hmn : m ≤ n) (hn : n ≤ 7) : vliBudget m ≤ vliBudget n := by
  have htable : ∀ n ≤ 7, ∀ m ≤ n, vliBudget m ≤ vliBudget n := by decide
  exact htable n hn m hmn

/-- R142: the least row that holds the value; the row before it does not, and so no shorter one does. -/
theorem vliRow_eq_some_iff (v n : Nat) :
    vliRow v = some n ↔
      1 ≤ n ∧ n ≤ 7 ∧ v < 2 ^ vliBudget n ∧ (n ≠ 1 → 2 ^ vliBudget (n - 1) ≤ v) := by
  have hrows : [1, 2, 3, 4, 5, 6, 7] = List.range' 1 7 := rfl
  rw [vliRow, hrows, List.find?_range'_eq_some]
  simp only [List.mem_range'_1, sig_le_iff, decide_eq_true_eq, Bool.not_eq_true', decide_eq_false_iff_not, not_lt]
  constructor
  · rintro ⟨hfits, ⟨hpos, hle⟩, hleast⟩
    exact ⟨hpos, by omega, hfits, fun hn => hleast (n - 1) (by omega) (by omega)⟩
  · rintro ⟨hpos, hle, hfits, hprev⟩
    refine ⟨hfits, ⟨hpos, by omega⟩, fun m hm hmn => ?_⟩
    have hmono : vliBudget m ≤ vliBudget (n - 1) := vliBudget_mono (by omega) (by omega)
    exact (Nat.pow_le_pow_right (by decide) hmono).trans (hprev (by omega))

theorem vliRow_eq_none_iff (v : Nat) : vliRow v = none ↔ 2 ^ 36 ≤ v := by
  have hrows : [1, 2, 3, 4, 5, 6, 7] = List.range' 1 7 := rfl
  rw [vliRow, hrows, List.find?_range'_eq_none]
  simp only [sig_le_iff, Bool.not_eq_true', decide_eq_false_iff_not, not_lt]
  constructor
  · exact fun h => h 7 (by decide) (by decide)
  · intro h m _ hm
    have hmono : vliBudget m ≤ 36 := vliBudget_mono (n := 7) (by omega) le_rfl
    exact (Nat.pow_le_pow_right (by decide) hmono).trans h

theorem exists_vliRow {v : Nat} (hv : v < 2 ^ 36) : ∃ n, vliRow v = some n := by
  rw [← Option.ne_none_iff_exists', Ne, vliRow_eq_none_iff]
  exact hv.not_ge

theorem lt_of_vliRow {v n : Nat} (h : vliRow v = some n) : v < 2 ^ 36 := by
  by_contra hv
  rw [(vliRow_eq_none_iff v).mpr (not_lt.mp hv)] at h
  cases h

theorem vliRow_mono {v v' n n' : Nat} (hv : v ≤ v') (h : vliRow v = some n) (h' : vliRow v' = some n') :
    n ≤ n' := by
  obtain ⟨-, hle, -, hprev⟩ := (vliRow_eq_some_iff v n).mp h
  obtain ⟨hpos, -, hfits, -⟩ := (vliRow_eq_some_iff v' n').mp h'
  by_contra hlt
  have hmono : vliBudget n' ≤ vliBudget (n - 1) := vliBudget_mono (by omega) (by omega)
  have hpow : 2 ^ vliBudget n' ≤ 2 ^ vliBudget (n - 1) := Nat.pow_le_pow_right (by decide) hmono
  have := hprev (by omega)
  omega

/-! ## The code of a row as a function of its `x` bits (R141, R143) -/

/-- R141: how many ones the leading byte of row `n` begins with; the bit after them is 0, and the other
`L(n) = 7 - vliOnes n` bits of the byte are `x` bits. -/
def vliOnes (n : Nat) : Nat := if n = 1 then 0 else n

/-- R141: the leading byte of row `n`, its `x` positions filled with `a`. -/
def vliLead (n : Nat) (a : List Bit) : List Bit := List.replicate (vliOnes n) true ++ false :: a

/-- R143: the code of row `n`, its `x` positions filled with `x`. -/
def vliCode (n : Nat) (x : List Bit) : List Bit :=
  vliLead n (x.take (7 - vliOnes n)) ++ vliContinuations (n - 1) (x.drop (7 - vliOnes n))

theorem vliOnes_of_ne_one {n : Nat} (hn : n ≠ 1) : vliOnes n = n := if_neg hn

theorem vliOnes_le {n : Nat} (hle : n ≤ 7) : vliOnes n ≤ 7 := by
  unfold vliOnes
  split <;> omega

/-- R141, `B(n) = L(n) + 6 (n - 1)`: the leading byte's `x` bits, then six for each continuation byte. -/
theorem vliBudget_eq {n : Nat} (hpos : 1 ≤ n) (hle : n ≤ 7) : vliBudget n = 7 - vliOnes n + 6 * (n - 1) := by
  interval_cases n <;> rfl

theorem vliEncodeRow_eq_vliCode (n v : Nat) : vliEncodeRow n v = vliCode n (bitsN (vliBudget n) v) := by
  by_cases hn : n = 1
  · subst hn
    simp [vliEncodeRow, vliCode, vliLead, vliOnes, vliBudget, vliContinuations]
  · simp [vliEncodeRow, vliCode, vliLead, vliOnes_of_ne_one hn, hn]

theorem vliEncode_eq_vliCode {v n : Nat} (h : vliRow v = some n) :
    vliEncode v = vliCode n (bitsN (vliBudget n) v) := by
  rw [← vliEncodeRow_eq_vliCode, vliEncode, h]

theorem vliLead_length {n : Nat} {a : List Bit} (hle : n ≤ 7) (ha : a.length = 7 - vliOnes n) :
    (vliLead n a).length = 8 := by
  have hones := vliOnes_le hle
  simp [vliLead, ha]
  omega

theorem vliContinuations_length {m : Nat} {y : List Bit} (hy : y.length = 6 * m) :
    (vliContinuations m y).length = 8 * m := by
  induction m generalizing y with
  | zero => rfl
  | succ m ih =>
    have hrest : (y.drop 6).length = 6 * m := by simp; omega
    simp [vliContinuations, ih hrest]
    omega

theorem vliContinuations_lt {m : Nat} {x y : List Bit} (hx : x.length = 6 * m) (hy : y.length = 6 * m)
    (h : x < y) : vliContinuations m x < vliContinuations m y := by
  induction m generalizing x y with
  | zero => simp [List.length_eq_zero_iff.mp hx, List.length_eq_zero_iff.mp hy] at h
  | succ m ih =>
    have hsix : (x.take 6).length = (y.take 6).length := by simp; omega
    rw [← List.take_append_drop 6 x, ← List.take_append_drop 6 y, append_lt_append_iff hsix] at h
    simp only [vliContinuations, List.append_assoc]
    refine List.append_left_lt ((append_lt_append_iff hsix).mpr (h.imp_right fun ⟨heq, hlt⟩ => ⟨heq, ?_⟩))
    exact ih (by simp; omega) (by simp; omega) hlt

/-- R141: the bits `x` fill the `x` positions of row `n`. -/
structure VliFills (n : Nat) (x : List Bit) : Prop where
  pos : 1 ≤ n
  le : n ≤ 7
  length : x.length = vliBudget n

theorem vliFills_bitsN {v n : Nat} (h : vliRow v = some n) : VliFills n (bitsN (vliBudget n) v) := by
  obtain ⟨hpos, hle, -, -⟩ := (vliRow_eq_some_iff v n).mp h
  exact ⟨hpos, hle, bitsN_length _ _⟩

namespace VliFills

variable {n : Nat} {x : List Bit} (h : VliFills n x)
include h

theorem take_length : (x.take (7 - vliOnes n)).length = 7 - vliOnes n := by
  rw [List.length_take, h.length, vliBudget_eq h.pos h.le]
  omega

theorem drop_length : (x.drop (7 - vliOnes n)).length = 6 * (n - 1) := by
  rw [List.length_drop, h.length, vliBudget_eq h.pos h.le]
  omega

theorem lead_length : (vliLead n (x.take (7 - vliOnes n))).length = 8 := vliLead_length h.le h.take_length

theorem vliCode_length : (vliCode n x).length = 8 * n := by
  have hpos := h.pos
  rw [vliCode, List.length_append, h.lead_length, vliContinuations_length h.drop_length]
  omega

theorem take_vliCode : (vliCode n x).take 8 = vliLead n (x.take (7 - vliOnes n)) :=
  List.take_left' h.lead_length

end VliFills

/-! ## The reference decoder (R149) -/

theorem vliGather_byte {a : List Bit} (ha : a.length = 6) (m : Nat) (s : List Bit) :
    vliGather (m + 1) (true :: false :: (a ++ s)) = (vliGather m s).map (a ++ ·) := by
  simp [vliGather, List.drop_left' ha, List.take_left' ha]

/-- Gathering undoes the continuation bytes. -/
theorem vliGather_vliContinuations {m : Nat} {y : List Bit} (hy : y.length = 6 * m) (t : List Bit) :
    vliGather m (vliContinuations m y ++ t) = some y := by
  induction m generalizing y with
  | zero => rw [List.length_eq_zero_iff.mp hy]; rfl
  | succ m ih =>
    have hsix : (y.take 6).length = 6 := by simp; omega
    have hrest : (y.drop 6).length = 6 * m := by simp; omega
    have hbyte : vliContinuations (m + 1) y ++ t =
        true :: false :: (y.take 6 ++ (vliContinuations m (y.drop 6) ++ t)) := by
      simp [vliContinuations]
    rw [hbyte, vliGather_byte hsix, ih hrest, Option.map_some, List.take_append_drop]

/-- Only continuation bytes are gathered. -/
theorem eq_vliContinuations_of_vliGather {m : Nat} {s y : List Bit} (hlen : 8 * m ≤ s.length)
    (h : vliGather m s = some y) : y.length = 6 * m ∧ s = vliContinuations m y ++ s.drop (8 * m) := by
  induction m generalizing s y with
  | zero =>
    cases h
    exact ⟨rfl, rfl⟩
  | succ m ih =>
    rw [vliGather] at h
    split at h
    case isFalse => cases h
    case isTrue hprefix =>
      obtain ⟨z, hz, rfl⟩ := Option.map_eq_some_iff.mp h
      obtain ⟨hzlen, hrest⟩ := ih (by simp; omega) hz
      have hsix : ((s.drop 2).take 6).length = 6 := by simp; omega
      have hnext : (s.drop 8).drop (8 * m) = s.drop (8 * (m + 1)) := by
        rw [List.drop_drop, Nat.mul_succ, Nat.add_comm]
      refine ⟨by rw [List.length_append, hsix, hzlen]; omega, ?_⟩
      calc
        s = s.take 2 ++ ((s.drop 2).take 6 ++ (s.drop 2).drop 6) := by simp only [List.take_append_drop]
        _ = [true, false] ++ ((s.drop 2).take 6 ++ (vliContinuations m z ++ s.drop (8 * (m + 1)))) := by
          rw [hprefix, List.drop_drop, ← hnext, ← hrest]
        _ = _ := by
          simp only [vliContinuations, List.take_left' hsix, List.drop_left' hsix, List.append_assoc]

/-- The leading byte is fixed by its count of leading ones and the bits after the 0 that ends them. -/
theorem take_eight_eq_vliLead {n : Nat} {s : List Bit} (hle : n ≤ 7) (hlen : 8 ≤ s.length)
    (hones : leadingOnes (s.take 8) = vliOnes n) :
    s.take 8 = vliLead n ((s.drop (vliOnes n + 1)).take (7 - vliOnes n)) := by
  have hcount := vliOnes_le hle
  have hbits : 8 - (vliOnes n + 1) = 7 - vliOnes n := by omega
  rw [eq_replicate_append_of_leadingOnes hones (by simp; omega), List.drop_take, hbits, vliLead]

theorem vliDecode_of_no_leadingOne {s : List Bit} (hlen : 8 ≤ s.length) (hones : leadingOnes (s.take 8) = 0) :
    vliDecode s = .ok (val ((s.drop 1).take 7)) 8 := by
  rw [vliDecode, if_neg hlen.not_gt]
  exact if_pos hones

theorem vliDecode_of_vliGather {n : Nat} {s y : List Bit} (htwo : 2 ≤ n) (hle : n ≤ 7) (hlen : 8 * n ≤ s.length)
    (hones : leadingOnes (s.take 8) = n) (hgather : vliGather (n - 1) (s.drop 8) = some y)
    (hleast : 2 ^ vliBudget (n - 1) ≤ val ((s.drop (n + 1)).take (7 - n) ++ y)) :
    vliDecode s = .ok (val ((s.drop (n + 1)).take (7 - n) ++ y)) (8 * n) := by
  have hbyte : ¬ s.length < 8 := by omega
  have hrow : n ≠ 0 ∧ ¬ (n = 1 ∨ n = 8) := by omega
  have hfits : ¬ sig (val ((s.drop (n + 1)).take (7 - n) ++ y)) ≤ vliBudget (n - 1) := by
    rw [sig_le_iff]
    exact hleast.not_gt
  simp only [vliDecode, hones, if_neg hbyte, if_neg hrow.1, if_neg hrow.2, if_neg hlen.not_gt, hgather, if_neg hfits]

/-- Everything `vliDecode` reads and checks before it answers a value. -/
theorem vliDecode_ok_cases {s : List Bit} {v m : Nat} (h : vliDecode s = .ok v m) :
    (8 ≤ s.length ∧ leadingOnes (s.take 8) = 0 ∧ v = val ((s.drop 1).take 7) ∧ m = 8) ∨
    ∃ n y, 2 ≤ n ∧ n ≤ 7 ∧ 8 * n ≤ s.length ∧ leadingOnes (s.take 8) = n ∧
      vliGather (n - 1) (s.drop 8) = some y ∧ v = val ((s.drop (n + 1)).take (7 - n) ++ y) ∧
      2 ^ vliBudget (n - 1) ≤ v ∧ m = 8 * n := by
  have hcount : leadingOnes (s.take 8) ≤ 8 := (leadingOnes_le _).trans (List.length_take_le 8 s)
  unfold vliDecode at h
  split at h
  case isTrue => cases h
  case isFalse hbyte =>
  dsimp only at h
  split at h
  case isTrue hzero =>
    cases h
    exact .inl ⟨by omega, hzero, rfl, rfl⟩
  case isFalse hzero =>
  split at h
  case isTrue => cases h
  case isFalse hlead =>
  split at h
  case isTrue => cases h
  case isFalse hlen =>
  split at h
  case h_1 => cases h
  case h_2 y hgather =>
  split at h
  case isTrue => cases h
  case isFalse hlong =>
  cases h
  rw [sig_le_iff, not_lt] at hlong
  exact .inr ⟨_, y, by omega, by omega, by omega, rfl, hgather, rfl, hlong, rfl⟩

/-- What the decoder reads from the front of a row's code: its count of leading ones and its `x` bits. -/
theorem VliFills.read_vliCode {n : Nat} {x : List Bit} (h : VliFills n x) (t : List Bit) :
    leadingOnes ((vliCode n x ++ t).take 8) = vliOnes n ∧
    vliGather (n - 1) ((vliCode n x ++ t).drop 8) = some (x.drop (7 - vliOnes n)) ∧
    ((vliCode n x ++ t).drop (vliOnes n + 1)).take (7 - vliOnes n) = x.take (7 - vliOnes n) := by
  refine ⟨?_, ?_, ?_⟩
  · rw [vliCode, List.append_assoc, List.take_left' h.lead_length, vliLead, leadingOnes_replicate_append_false]
  · rw [vliCode, List.append_assoc, List.drop_left' h.lead_length, vliGather_vliContinuations h.drop_length]
  · have hprefix : (List.replicate (vliOnes n) true ++ [false]).length = vliOnes n + 1 := by simp
    rw [vliCode, vliLead, List.append_cons, List.append_assoc, List.append_assoc, List.drop_left' hprefix,
      List.take_left' h.take_length]

/-- A row's code is decoded to the value of its `x` bits, unless a shorter row holds that value. -/
theorem VliFills.vliDecode_vliCode {n : Nat} {x : List Bit} (h : VliFills n x)
    (hleast : n ≠ 1 → 2 ^ vliBudget (n - 1) ≤ val x) (t : List Bit) :
    vliDecode (vliCode n x ++ t) = .ok (val x) (8 * n) := by
  obtain ⟨hones, hgather, hbits⟩ := h.read_vliCode t
  have hpos := h.pos
  have hlen : 8 * n ≤ (vliCode n x ++ t).length := by simp [h.vliCode_length]
  by_cases hn : n = 1
  · subst hn
    have hread : ((vliCode 1 x ++ t).drop 1).take 7 = x.take 7 := hbits
    have hseven : x.length ≤ 7 := h.length.le
    rw [vliDecode_of_no_leadingOne hlen hones, hread, List.take_of_length_le hseven]
  · rw [vliOnes_of_ne_one hn] at hones hgather hbits
    have hx := List.take_append_drop (7 - n) x
    rw [vliDecode_of_vliGather (by omega) h.le hlen hones hgather (by rw [hbits, hx]; exact hleast hn), hbits, hx]

/-- Conversely, what passes the decoder's checks is a row's code, filled with the bits that were read. -/
theorem eq_vliCode_of_read {n : Nat} {s y : List Bit} (hpos : 1 ≤ n) (hle : n ≤ 7) (hlen : 8 * n ≤ s.length)
    (hones : leadingOnes (s.take 8) = vliOnes n) (hgather : vliGather (n - 1) (s.drop 8) = some y) :
    VliFills n ((s.drop (vliOnes n + 1)).take (7 - vliOnes n) ++ y) ∧
    s = vliCode n ((s.drop (vliOnes n + 1)).take (7 - vliOnes n) ++ y) ++ s.drop (8 * n) := by
  have hcount := vliOnes_le hle
  have hlead := take_eight_eq_vliLead hle (by omega) hones
  have htail : 8 * (n - 1) ≤ (s.drop 8).length := by simp; omega
  obtain ⟨hylen, hbytes⟩ := eq_vliContinuations_of_vliGather htail hgather
  generalize ha : (s.drop (vliOnes n + 1)).take (7 - vliOnes n) = a at *
  have halen : a.length = 7 - vliOnes n := by rw [← ha]; simp; omega
  have hrest : (s.drop 8).drop (8 * (n - 1)) = s.drop (8 * n) := by rw [List.drop_drop]; congr 1; omega
  refine ⟨⟨hpos, hle, by rw [vliBudget_eq hpos hle, List.length_append, halen, hylen]⟩, ?_⟩
  rw [vliCode, List.take_left' halen, List.drop_left' halen, List.append_assoc, ← hrest, ← hbytes, ← hlead,
    List.take_append_drop]

theorem exists_vliCode_of_vliDecode {s : List Bit} {v m : Nat} (h : vliDecode s = .ok v m) :
    ∃ n x t, VliFills n x ∧ s = vliCode n x ++ t ∧ v = val x ∧
      (n ≠ 1 → 2 ^ vliBudget (n - 1) ≤ v) ∧ m = 8 * n := by
  obtain ⟨hlen, hones, hv, hm⟩ | ⟨n, y, htwo, hle, hlen, hones, hgather, hv, hleast, hm⟩ := vliDecode_ok_cases h
  · obtain ⟨hfills, hs⟩ := eq_vliCode_of_read (n := 1) (y := []) le_rfl (by decide) hlen hones rfl
    exact ⟨1, _, _, hfills, hs, by rw [List.append_nil]; exact hv, fun hn => absurd rfl hn, hm⟩
  · have hn : vliOnes n = n := vliOnes_of_ne_one (by omega)
    obtain ⟨hfills, hs⟩ := eq_vliCode_of_read (by omega) hle hlen (hones.trans hn.symm) hgather
    exact ⟨n, _, _, hfills, hs, by rw [hn]; exact hv, fun _ => hleast, hm⟩

/-! ## Codes and values -/

theorem vliDecode_vliEncode_append {v n : Nat} (h : vliRow v = some n) (t : List Bit) :
    vliDecode (vliEncode v ++ t) = .ok v (8 * n) := by
  obtain ⟨-, -, hfits, hleast⟩ := (vliRow_eq_some_iff v n).mp h
  have hval : val (bitsN (vliBudget n) v) = v := by rw [val_bitsN, Nat.mod_eq_of_lt hfits]
  rw [vliEncode_eq_vliCode h, (vliFills_bitsN h).vliDecode_vliCode (by rwa [hval]), hval]

theorem vliEncode_length {v n : Nat} (h : vliRow v = some n) : (vliEncode v).length = 8 * n := by
  rw [vliEncode_eq_vliCode h, (vliFills_bitsN h).vliCode_length]

/-- R149: the value read is the value whose code was read. -/
theorem eq_vliEncode_append_of_vliDecode {s : List Bit} {v m : Nat} (h : vliDecode s = .ok v m) :
    ∃ n t, vliRow v = some n ∧ m = 8 * n ∧ s = vliEncode v ++ t := by
  obtain ⟨n, x, t, hfills, rfl, rfl, hleast, rfl⟩ := exists_vliCode_of_vliDecode h
  have hrow : vliRow (val x) = some n :=
    (vliRow_eq_some_iff _ n).mpr ⟨hfills.pos, hfills.le, hfills.length ▸ val_lt x, hleast⟩
  refine ⟨n, t, hrow, rfl, ?_⟩
  rw [vliEncode_eq_vliCode hrow, ← hfills.length, bitsN_val]

theorem vliEncode_ne_nil {v : Nat} (hv : v < 2 ^ 36) : vliEncode v ≠ [] := by
  obtain ⟨n, hn⟩ := exists_vliRow hv
  obtain ⟨hpos, -, -, -⟩ := (vliRow_eq_some_iff v n).mp hn
  have hlen := vliEncode_length hn
  rw [← List.length_pos_iff]
  omega

theorem vliEncode_append_inj {v v' : Nat} {t t' : List Bit} (hv : v < 2 ^ 36) (hv' : v' < 2 ^ 36)
    (h : vliEncode v ++ t = vliEncode v' ++ t') : v = v' := by
  obtain ⟨n, hn⟩ := exists_vliRow hv
  obtain ⟨n', hn'⟩ := exists_vliRow hv'
  have hdecode := vliDecode_vliEncode_append hn t
  rw [h, vliDecode_vliEncode_append hn' t'] at hdecode
  exact (Decoded.ok.inj hdecode).1.symm

/-- A code whose words are not empty and are told apart whatever follows them can be cut back in one way. -/
theorem flatMap_inj_of_append_inj {code : Nat → List Bit} {P : Nat → Prop} (hne : ∀ v, P v → code v ≠ [])
    (hcode : ∀ v v' t t', P v → P v' → code v ++ t = code v' ++ t' → v = v') {vs vs' : List Nat}
    (hvs : ∀ v ∈ vs, P v) (hvs' : ∀ v ∈ vs', P v) (h : vs.flatMap code = vs'.flatMap code) : vs = vs' := by
  induction vs generalizing vs' with
  | nil =>
    cases vs' with
    | nil => rfl
    | cons v' vs' =>
      rw [List.flatMap_nil, List.flatMap_cons] at h
      exact absurd (List.append_eq_nil_iff.mp h.symm).1 (hne v' (hvs' v' List.mem_cons_self))
  | cons v vs ih =>
    cases vs' with
    | nil =>
      rw [List.flatMap_nil, List.flatMap_cons] at h
      exact absurd (List.append_eq_nil_iff.mp h).1 (hne v (hvs v List.mem_cons_self))
    | cons v' vs' =>
      rw [List.forall_mem_cons] at hvs hvs'
      rw [List.flatMap_cons, List.flatMap_cons] at h
      obtain rfl := hcode v v' _ _ hvs.1 hvs'.1 h
      rw [ih hvs.2 hvs'.2 (List.append_cancel_left h)]

theorem vliOnes_lt_vliOnes {n n' : Nat} (hpos : 1 ≤ n) (hn : n < n') : vliOnes n < vliOnes n' := by
  unfold vliOnes
  split <;> split <;> omega

/-- A longer row's leading byte has a 1 where a shorter row's has its 0. -/
theorem vliCode_lt_vliCode_of_row_lt {n n' : Nat} (hpos : 1 ≤ n) (hn : n < n') (x y : List Bit) :
    vliCode n x < vliCode n' y := by
  simp only [vliCode, vliLead, List.append_assoc, List.cons_append]
  exact replicate_append_false_lt (vliOnes_lt_vliOnes hpos hn) _ _

theorem vliCode_lt_vliCode {n : Nat} {x y : List Bit} (hx : VliFills n x) (hy : VliFills n y) (h : x < y) :
    vliCode n x < vliCode n y := by
  have hlen := hx.take_length.trans hy.take_length.symm
  rw [← List.take_append_drop (7 - vliOnes n) x, ← List.take_append_drop (7 - vliOnes n) y,
    append_lt_append_iff hlen] at h
  simp only [vliCode, vliLead, List.append_assoc, List.cons_append]
  refine List.append_left_lt (List.cons_lt_cons_iff.mpr (.inr ⟨rfl, (append_lt_append_iff hlen).mpr ?_⟩))
  exact h.imp_right fun ⟨heq, hlt⟩ => ⟨heq, vliContinuations_lt hx.drop_length hy.drop_length hlt⟩

theorem vliEncode_lt_vliEncode {v v' : Nat} (h : v < v') (hv' : v' < 2 ^ 36) : vliEncode v < vliEncode v' := by
  obtain ⟨n, hn⟩ := exists_vliRow (h.trans hv')
  obtain ⟨n', hn'⟩ := exists_vliRow hv'
  have hfills := vliFills_bitsN hn
  have hfills' := vliFills_bitsN hn'
  rw [vliEncode_eq_vliCode hn, vliEncode_eq_vliCode hn']
  obtain rfl | hrow := (vliRow_mono h.le hn hn').eq_or_lt
  · obtain ⟨-, -, hfits, -⟩ := (vliRow_eq_some_iff v' n).mp hn'
    exact vliCode_lt_vliCode hfills hfills' (bitsN_lt_bitsN h hfits)
  · exact vliCode_lt_vliCode_of_row_lt hfills.pos hrow _ _

/-! ## The code as byte values (R144) -/

theorem vliContinuations_bitsN_succ (m v : Nat) :
    vliContinuations (m + 1) (bitsN (6 * (m + 1)) v) =
      (true :: false :: bitsN 6 (v >>> (6 * m))) ++ vliContinuations m (bitsN (6 * m) v) := by
  have hsix : (bitsN 6 (v >>> (6 * m))).length = 6 := bitsN_length _ _
  rw [Nat.mul_succ, Nat.add_comm _ 6, bitsN_add, vliContinuations, List.take_left' hsix, List.drop_left' hsix]
  rfl

theorem vliContinuations_bitsN_byte {m j : Nat} (hj : j < m) (v : Nat) :
    ((vliContinuations m (bitsN (6 * m) v)).drop (8 * j)).take 8 =
      true :: false :: bitsN 6 (v >>> (6 * (m - 1 - j))) := by
  induction m generalizing j with
  | zero => omega
  | succ m ih =>
    have hbyte : (true :: false :: bitsN 6 (v >>> (6 * m))).length = 8 := by simp
    rw [vliContinuations_bitsN_succ]
    cases j with
    | zero => exact List.take_left' hbyte
    | succ j =>
      have hindex : m - 1 - j = m + 1 - 1 - (j + 1) := by omega
      rw [Nat.mul_succ, Nat.add_comm, ← List.drop_drop, List.drop_left' hbyte, ih (by omega), hindex]

theorem val_continuation_byte (w : Nat) : val (true :: false :: bitsN 6 w) = 0x80 ||| (w &&& 0x3F) := by
  have hmask : w &&& 0x3F = w % 2 ^ 6 := Nat.and_two_pow_sub_one_eq_mod w 6
  have hlow : w % 2 ^ 6 < 2 ^ 7 := (Nat.mod_lt w (by decide)).trans (by decide)
  rw [hmask, ← Nat.two_pow_add_eq_or_of_lt (i := 7) hlow 1]
  simp [val, val_bitsN]

theorem val_vliLead {n : Nat} {a : List Bit} (hle : n ≤ 7) (hn : n ≠ 1) (ha : a.length = 7 - n) :
    val (vliLead n a) = ((2 ^ n - 1) <<< (8 - n)) ||| val a := by
  have hlen : (false :: a).length = 8 - n := by simp; omega
  have hzero : val (false :: a) = val a := by simp [val]
  have hlow : val a < 2 ^ (8 - n) := hzero ▸ hlen ▸ val_lt (false :: a)
  rw [vliLead, vliOnes_of_ne_one hn, val_append, val_replicate_true, hlen, hzero,
    ← Nat.shiftLeft_add_eq_or_of_lt hlow, Nat.shiftLeft_eq]

theorem val_vliEncode_of_row_one {v : Nat} (h : vliRow v = some 1) : val (vliEncode v) = v := by
  obtain ⟨-, -, hfits, -⟩ := (vliRow_eq_some_iff v 1).mp h
  have hcode : vliEncode v = false :: bitsN 7 v := by rw [vliEncode, h]; rfl
  have hval : val (false :: bitsN 7 v) = val (bitsN 7 v) := by simp [val]
  rw [hcode, hval, val_bitsN]
  exact Nat.mod_eq_of_lt hfits

section Bytes

variable {v n : Nat} (h : vliRow v = some n) (hn : n ≠ 1)
include h hn

/-- In the rows above 1 the leading byte holds the value's top `7 - n` bits, the continuation bytes its low bits. -/
theorem vliEncode_eq_vliLead_append :
    vliEncode v = vliLead n (bitsN (7 - n) (v >>> (6 * (n - 1)))) ++
      vliContinuations (n - 1) (bitsN (6 * (n - 1)) v) := by
  obtain ⟨hpos, hle, -, -⟩ := (vliRow_eq_some_iff v n).mp h
  have hlead : (bitsN (7 - n) (v >>> (6 * (n - 1)))).length = 7 - n := bitsN_length _ _
  rw [vliEncode_eq_vliCode h, vliBudget_eq hpos hle, vliCode, vliOnes_of_ne_one hn, bitsN_add,
    List.take_left' hlead, List.drop_left' hlead]

theorem vliEncode_lead_length : (vliLead n (bitsN (7 - n) (v >>> (6 * (n - 1))))).length = 8 := by
  obtain ⟨-, hle, -, -⟩ := (vliRow_eq_some_iff v n).mp h
  exact vliLead_length hle (by rw [bitsN_length, vliOnes_of_ne_one hn])

theorem shiftRight_lt_of_vliRow : v >>> (6 * (n - 1)) < 2 ^ (7 - n) := by
  obtain ⟨hpos, hle, hfits, -⟩ := (vliRow_eq_some_iff v n).mp h
  rw [vliBudget_eq hpos hle, vliOnes_of_ne_one hn, Nat.add_comm, pow_add] at hfits
  rw [Nat.shiftRight_eq_div_pow]
  exact Nat.div_lt_of_lt_mul hfits

theorem val_take_eight_vliEncode :
    val ((vliEncode v).take 8) = ((2 ^ n - 1) <<< (8 - n)) ||| (v >>> (6 * (n - 1))) := by
  obtain ⟨-, hle, -, -⟩ := (vliRow_eq_some_iff v n).mp h
  rw [vliEncode_eq_vliLead_append h hn, List.take_left' (vliEncode_lead_length h hn),
    val_vliLead hle hn (bitsN_length _ _), val_bitsN, Nat.mod_eq_of_lt (shiftRight_lt_of_vliRow h hn)]

theorem val_byte_vliEncode {j : Nat} (hj : j < n - 1) :
    val (((vliEncode v).drop (8 * (j + 1))).take 8) = 0x80 ||| ((v >>> (6 * (n - 1 - (j + 1)))) &&& 0x3F) := by
  have hindex : n - 1 - 1 - j = n - 1 - (j + 1) := by omega
  rw [vliEncode_eq_vliLead_append h hn, Nat.mul_succ, Nat.add_comm, ← List.drop_drop,
    List.drop_left' (vliEncode_lead_length h hn), vliContinuations_bitsN_byte hj, val_continuation_byte, hindex]

end Bytes

end Sys2Proof.Machine

namespace Sys2Proof.Proofs

open Sys2Proof.Machine Sys2Proof.Claims

/-- Settles O47: the count of leading ones gives the row, and the bytes of the row give back its `x` bits. -/
theorem vliRoundTrip : Obligations.VliRoundTrip := by
  intro v t hv
  obtain ⟨n, hn⟩ := exists_vliRow hv
  exact ⟨n, hn, vliDecode_vliEncode_append hn t⟩

/-- Settles O48: the decoder's checks leave only the code that `vliEncode` would choose. -/
theorem vliDecodeIsExactInverse : Obligations.VliDecodeIsExactInverse := by
  intro s v m
  constructor
  · intro h
    obtain ⟨n, t, hn, rfl, hs⟩ := eq_vliEncode_append_of_vliDecode h
    exact ⟨lt_of_vliRow hn, (vliEncode_length hn).symm, t, hs⟩
  · rintro ⟨hv, rfl, t, rfl⟩
    obtain ⟨n, hn⟩ := exists_vliRow hv
    rw [vliEncode_length hn, vliDecode_vliEncode_append hn]

/-- Settles O24: the check is `2^36`, the emission the code, and `arg` is unused in the word's shape CO. -/
theorem vliEncEmitsCode : Obligations.VliEncEmitsCode := by
  intro s value
  refine ⟨fun arg => ?_, fun hrange => ?_, fun hv => ?_⟩
  · have hzero {i : Instr} (hi : decode (mkWord 0x20 arg value) = .ok i) : arg = 0 :=
      ((decode_mkWord_ok_iff .vliEnc arg value i).mp hi).1 rfl
    refine ⟨⟨hzero, ?_⟩, fun harg => rejectedWord_of_not_ok fun i hi => harg (hzero hi)⟩
    rintro rfl
    exact (decode_encode_iff (.vliEnc value)).mpr rfl
  · exact exec_of_error (if_pos hrange)
  · refine ⟨_, exec_of_no_error ((vliError_none_iff value).mpr hv), ?_, rfl⟩
    rw [completed_outBits, emissionOf, runsBits_runsOfBits]

/-- Settles O44: the least row whose budget holds the value, with the budgets of R141. -/
theorem vliRowRanges : Obligations.VliRowRanges := by
  intro v
  simp only [vliRow_eq_some_iff, vliRow_eq_none_iff, Nat.reduceSub, vliBudget]
  omega

/-- Settles O45: every value below `2^36` has a row, whose bytes are eight bits each. -/
theorem vliLengthIsRow : Obligations.VliLengthIsRow := by
  intro v hv
  obtain ⟨n, hn⟩ := exists_vliRow hv
  obtain ⟨hpos, hle, -, -⟩ := (vliRow_eq_some_iff v n).mp hn
  exact ⟨n, hpos, hle, hn, vliEncode_length hn⟩

/-- Settles O46: `bitsN` of the budget is the leading byte's bits, then groups of six. -/
theorem vliByteValues : Obligations.VliByteValues := by
  intro v n h
  refine ⟨fun hn => val_vliEncode_of_row_one (hn ▸ h), fun htwo => ?_⟩
  have hn : n ≠ 1 := by omega
  refine ⟨shiftRight_lt_of_vliRow h hn, val_take_eight_vliEncode h hn, fun j hj hjn => ?_⟩
  obtain ⟨i, rfl⟩ : ∃ i, j = i + 1 := ⟨j - 1, by omega⟩
  exact val_byte_vliEncode h hn hjn

/-- Settles O49: the decoder tells codes apart whatever follows them; a longer row's leading byte has more ones. -/
theorem vliIsPrefixFree : Obligations.VliIsPrefixFree := by
  refine ⟨fun v v' hv hv' hne hprefix => ?_, fun vs vs' hvs hvs' h => ?_, fun _ _ => vliEncode_lt_vliEncode⟩
  · obtain ⟨t, ht⟩ := hprefix
    exact hne (vliEncode_append_inj hv hv' (ht.trans (List.append_nil _).symm))
  · exact flatMap_inj_of_append_inj (P := (· < 2 ^ 36)) (fun _ => vliEncode_ne_nil)
      (fun _ _ _ _ hv hv' => vliEncode_append_inj hv hv') hvs hvs' h

/-- Settles O50: the leading byte has no leading one, or as many as its row, 2 to 7. -/
theorem vliLeadIsNoContinuation : Obligations.VliLeadIsNoContinuation := by
  intro v hv
  obtain ⟨n, hn⟩ := exists_vliRow hv
  have hfills := vliFills_bitsN hn
  rw [vliEncode_eq_vliCode hn]
  constructor
  · have hpos := hfills.pos
    by_cases hrow : n = 1
    · subst hrow
      exact .inl rfl
    · obtain ⟨m, rfl⟩ : ∃ m, n = m + 2 := ⟨n - 2, by omega⟩
      refine .inr ?_
      rw [vliCode, vliLead, vliOnes_of_ne_one hrow]
      rfl
  · intro hones
    have hcount := congrArg leadingOnes hones
    rw [hfills.take_vliCode, vliLead, leadingOnes_replicate_append_false] at hcount
    have hle := vliOnes_le hfills.le
    rw [hcount] at hle
    exact absurd hle (by decide)

end Sys2Proof.Proofs
end

section
/-! PROOFS of the statements of `42_rice.md`: a Rice code as a run of ones, the stop bit and a remainder of `k` bits,
which the reference decoder reads back whatever follows. -/

namespace Sys2Proof.Machine

/-! ## The code (R171) -/

/-- A run of ones that the stop bit ends, as `leadingOnes` reads it. -/
theorem riceEncode_eq (v k : Nat) :
    riceEncode v k = List.replicate (v >>> k) true ++ false :: bitsN k (v % 2 ^ k) :=
  (List.append_cons _ _ _).symm

@[simp] theorem riceEncode_length (v k : Nat) : (riceEncode v k).length = (v >>> k) + 1 + k := by
  rw [riceEncode, List.length_append, List.length_append, List.length_replicate, bitsN_length, List.length_singleton]

theorem riceEncode_ne_nil (v k : Nat) : riceEncode v k ≠ [] := by
  simp [riceEncode]

/-- The runs the block emits for a code (R244) stand for its bits. -/
@[simp] theorem runsBits_riceRuns (v k : Nat) : runsBits (riceRuns v k) = riceEncode v k := by
  simp [riceRuns, runsBits, riceEncode]

/-! ## Values with quotient 0 (R173) -/

theorem bitsN_zero_right (n : Nat) : bitsN n 0 = List.replicate n false :=
  eq_of_val_eq (by simp) (by simp [val_bitsN])

/-- Written wider than it needs, a value has zeros in front. -/
theorem bitsN_eq_replicate_append {n m v : Nat} (hv : v < 2 ^ n) (hnm : n ≤ m) :
    bitsN m v = List.replicate (m - n) false ++ bitsN n v := by
  obtain ⟨d, rfl⟩ := Nat.exists_eq_add_of_le' hnm
  rw [bitsN_add, Nat.shiftRight_eq_zero v n hv, bitsN_zero_right, Nat.add_sub_cancel]

theorem riceEncode_of_lt {v k : Nat} (hv : v < 2 ^ k) : riceEncode v k = false :: bitsN k v := by
  rw [riceEncode_eq, Nat.shiftRight_eq_zero v k hv, Nat.mod_eq_of_lt hv]
  rfl

/-! ## The reference decoder (R175) -/

/-- Any `q` ones, a stop bit and `k` bits are read as the quotient `q` and the remainder of those bits. -/
theorem riceDecode_code {k : Nat} {r : List Bit} (hr : r.length = k) (q : Nat) (t : List Bit) :
    riceDecode (List.replicate q true ++ false :: (r ++ t)) k = .ok (q * 2 ^ k + val r) (q + 1 + k) := by
  have hstop : q ≠ (List.replicate q true ++ false :: (r ++ t)).length := by simp
  have hlen : ¬ (List.replicate q true ++ false :: (r ++ t)).length < q + 1 + k := by simp; omega
  have hprefix : (List.replicate q true ++ [false]).length = q + 1 := by simp
  have hread : ((List.replicate q true ++ false :: (r ++ t)).drop (q + 1)).take k = r := by
    rw [List.append_cons, List.drop_left' hprefix, List.take_left' hr]
  simp only [riceDecode, leadingOnes_replicate_append_false, if_neg hstop, if_neg hlen, hread]

theorem riceDecode_riceEncode_append (v k : Nat) (t : List Bit) :
    riceDecode (riceEncode v k ++ t) k = .ok v ((v >>> k) + 1 + k) := by
  have hvalue : (v >>> k) * 2 ^ k + val (bitsN k (v % 2 ^ k)) = v := by
    rw [val_bitsN, Nat.mod_mod, Nat.shiftRight_eq_div_pow, Nat.div_add_mod']
  rw [riceEncode_eq, List.append_assoc, List.cons_append, riceDecode_code (bitsN_length _ _), hvalue]

theorem riceEncode_append_inj {v v' k : Nat} {t t' : List Bit}
    (h : riceEncode v k ++ t = riceEncode v' k ++ t') : v = v' := by
  have hdecode := riceDecode_riceEncode_append v k t
  rw [h, riceDecode_riceEncode_append] at hdecode
  exact (Decoded.ok.inj hdecode).1.symm

end Sys2Proof.Machine

namespace Sys2Proof.Proofs

open Sys2Proof.Machine

/-- Settles O53: the stop bit ends the run of ones, and the quotient and the remainder give the value back. -/
theorem riceRoundTrip : Obligations.RiceRoundTrip :=
  riceDecode_riceEncode_append

/-- Settles O25: the command has no check to fail, and its runs stand for the code. -/
theorem riceEncEmitsCode : Obligations.RiceEncEmitsCode := by
  intro s k value
  refine ⟨(decode_encode_iff (.riceEnc k value)).mpr rfl, _, exec_of_no_error rfl, ?_, rfl⟩
  rw [completed_outBits, emissionOf, runsBits_riceRuns, riceEncode]

/-- Settles O52: in (b) to (d) the quotient is 0, so that only the remainder follows the stop bit. -/
theorem riceEdgeCases : Obligations.RiceEdgeCases := by
  refine ⟨fun v => ?_, fun k => ?_, fun _ _ => riceEncode_of_lt, fun v k hsig => ?_⟩
  · rw [riceEncode, Nat.shiftRight_zero, bitsN, List.append_nil]
  · rw [riceEncode_of_lt (Nat.two_pow_pos k), bitsN_zero_right]
  · have hv : v < 2 ^ sig v := (sig_le_iff v _).mp le_rfl
    rw [riceEncode_of_lt ((sig_le_iff v k).mp hsig), bitsN_eq_replicate_append hv hsig]

/-- Settles O54: the decoder tells codes of one `k` apart whatever follows them. -/
theorem riceIsPrefixFree : Obligations.RiceIsPrefixFree := by
  refine fun k => ⟨fun v v' hne hprefix => ?_, fun vs vs' h => ?_⟩
  · obtain ⟨t, ht⟩ := hprefix
    exact hne (riceEncode_append_inj (ht.trans (List.append_nil _).symm))
  · exact flatMap_inj_of_append_inj (P := fun _ => True) (fun v _ => riceEncode_ne_nil v k)
      (fun _ _ _ _ _ _ => riceEncode_append_inj) (fun _ _ => trivial) (fun _ _ => trivial) h

/-- Settles O55: only the quotient in the length depends on the value. -/
theorem riceCostGrows : Obligations.RiceCostGrows := by
  intro v v' k
  simp only [riceEncode_length, Nat.shiftRight_eq_div_pow]
  constructor
  · intro h
    have hquotient : v / 2 ^ k ≤ v' / 2 ^ k := Nat.div_le_div_right h
    omega
  · rw [Nat.add_div_right v (Nat.two_pow_pos k)]
    omega

/-- Settles O51: the ones, the stop bit and the `k` bits of the remainder. -/
theorem riceLength : Obligations.RiceLength :=
  riceEncode_length

end Sys2Proof.Proofs
end

section
/-! PROOFS of the statements of `43_system.md`: the words of the system commands and the numbers the control registers
read as. -/

namespace Sys2Proof.Machine

open Sys2Proof.Claims

/-! ## The words of `RDREG` (R28, R191) -/

theorem CReg.toNat_index (r : CReg) : r.index.toNat = registerIndex r := by
  cases r <;> rfl

theorem decode_rdreg_word_iff (index : Byte) (opd : Word64) (r : CReg) :
    decode (mkWord Opcode.rdreg.code index opd) = .ok (.rdreg r) ↔ index.toNat = registerIndex r ∧ opd = 0 := by
  rw [← CReg.toNat_index, BitVec.toNat_inj]
  constructor
  · intro h
    obtain ⟨harg, hopd, -, hi⟩ := (decode_mkWord_ok_iff ..).mp h
    obtain ⟨-, hindex, -⟩ := (withOperands_eq_some_iff harg hopd).mp hi
    exact ⟨hindex.symm, hopd rfl⟩
  · rintro ⟨rfl, rfl⟩
    exact (decode_encode_iff (.rdreg r)).mpr rfl

theorem rejectedWord_rdreg {index : Byte} {opd : Word64} (h : 5 < index.toNat ∨ opd ≠ 0) :
    RejectedWord (mkWord Opcode.rdreg.code index opd) := by
  refine rejectedWord_of_not_ok fun i hi => ?_
  obtain ⟨-, hopd, hmax, -⟩ := (decode_mkWord_ok_iff ..).mp hi
  exact h.elim hmax.not_gt (absurd (hopd rfl))

/-! ## What the registers read as (R25, R27, R29) -/

/-- Fields that stand side by side in a register add up, each at its own power of two. -/
theorem toNat_append_eq_add {m n : Nat} (x : BitVec m) (y : BitVec n) :
    (x ++ y).toNat = x.toNat * 2 ^ n + y.toNat := by
  rw [BitVec.toNat_append, ← Nat.shiftLeft_add_eq_or_of_lt y.isLt, Nat.shiftLeft_eq]

theorem toNat_cfgd (s : State) : (cfgd s).toNat = if s.crcWidth = 0 then 0 else 1 := by
  by_cases h : s.crcWidth = 0
  · rw [if_pos h, cfgd, h]
    rfl
  · rw [if_neg h, cfgd, bne_iff_ne.mpr h]
    rfl

theorem toNat_statusWord (s : State) : (statusWord s).toNat = registerValue .status s := by
  simp only [statusWord, registerValue, toNat_append_eq_add, BitVec.toNat_ofBool, toNat_cfgd,
    BitVec.ofNat_eq_ofNat, BitVec.toNat_zero]
  omega

theorem toNat_capsWord (p : Params) : (capsWord p).toNat = p.wMax + 36 * 2 ^ 8 + 64 * 2 ^ 16 := by
  have hmax := p.atMost
  have hfits : p.wMax % 2 ^ 8 = p.wMax := Nat.mod_eq_of_lt (by omega)
  simp only [capsWord, toNat_append_eq_add, BitVec.toNat_ofNat, hfits, pushMax, vliMaxSig,
    BitVec.ofNat_eq_ofNat]
  omega

theorem toNat_readReg (r : CReg) (s : State) : (readReg r s).toNat = registerValue r s := by
  cases r with
  | status => exact toNat_statusWord s
  | crcWidth => exact BitVec.toNat_setWidth_of_le (by decide)
  | caps => exact toNat_capsWord s.params
  | _ => rfl

end Sys2Proof.Machine

namespace Sys2Proof.Proofs

open Sys2Proof.Machine

/-- Settles O12: `NOP` has no check, and its word is of shape C0. -/
theorem nopOnlyResponds : Obligations.NopOnlyResponds :=
  ⟨fun _ => exec_of_no_error rfl, fieldless_word (op := .nop) rfl (fun _ _ => rfl)⟩

/-- Settles O13: `RDREG` has no check and answers what `readReg` reads; its word's `arg` is the register's index. -/
theorem rdregReturnsRegister : Obligations.RdregReturnsRegister :=
  ⟨fun s r => ⟨readReg r s, exec_of_no_error rfl, toNat_readReg r s⟩,
    fun index opd => ⟨decode_rdreg_word_iff index opd, rejectedWord_rdreg⟩⟩

/-- Settles O14: `SRESET` has no check, and its register effect differs from a reset in the three streams alone. -/
theorem sresetClearsRegistersKeepsStreams : Obligations.SresetClearsRegistersKeepsStreams :=
  ⟨fun _ => exec_of_no_error rfl, fieldless_word (op := .sreset) rfl (fun _ _ => rfl)⟩

end Sys2Proof.Proofs
end

section
/-! PROOFS of the statements of `60_exceptions.md`: the causes of `ERR_ILLEGAL` read off the opcode table, the order of
a command's checks, and the idle step. -/

namespace Sys2Proof

/-! ## Undefined opcodes (R201(a)) -/

theorem mem_opcode_all (op : Opcode) : op ∈ Opcode.all := by cases op <;> decide

theorem exists_code_iff (opc : Byte) :
    (∃ op : Opcode, op.code = opc) ↔
      opc.toNat ∈ [0x00, 0x01, 0x02, 0x10, 0x11, 0x12, 0x13, 0x14, 0x15, 0x20, 0x30] := by
  have hcodes : [0x00, 0x01, 0x02, 0x10, 0x11, 0x12, 0x13, 0x14, 0x15, 0x20, 0x30] =
      Opcode.all.map fun op => op.code.toNat := rfl
  simp [hcodes, mem_opcode_all, BitVec.toNat_inj]

/-! ## The columns of R76 by the opcode's number (R71, R77) -/

theorem usesArg_eq_false_iff (op : Opcode) :
    op.shape.usesArg = false ↔ op.code.toNat ∈ [0x00, 0x02, 0x11, 0x14, 0x15, 0x20] := by
  cases op <;> decide

theorem usesOpd_eq_false_iff (op : Opcode) :
    op.shape.usesOpd = false ↔ op.code.toNat ∈ [0x00, 0x02, 0x11, 0x14, 0x15, 0x01] := by
  cases op <;> decide

/-- The byte `arg` exceeds its static range only where R201(c) or R201(d) names the opcode. -/
theorem argMax_lt_iff (op : Opcode) (arg : Byte) :
    op.argMax < arg.toNat ↔
      (5 < arg.toNat ∧ op.code.toNat = 0x01) ∨ (64 < arg.toNat ∧ op.code.toNat ∈ [0x12, 0x13]) := by
  have hbyte : ¬ 255 < arg.toNat := by omega
  cases op with
  | rdreg | crcPush | crcPushf => simp [Opcode.argMax, Opcode.code]
  | _ => simp [Opcode.argMax, Opcode.code, hbyte]

/-! ## Legal words (R77) -/

theorem ofIndex_isSome : ∀ i : Byte, i.toNat ≤ 5 → (CReg.ofIndex? i).isSome := by decide

/-- An `arg` in its static range gives a command: the range check is the last that can fail. -/
theorem exists_withOperands {op : Opcode} {arg : Byte} (h : arg.toNat ≤ op.argMax) (opd : Word64) :
    ∃ i, op.withOperands arg opd = some i := by
  cases op with
  | rdreg =>
    obtain ⟨r, hr⟩ := Option.isSome_iff_exists.mp (ofIndex_isSome arg h)
    exact ⟨.rdreg r, Option.map_eq_some_iff.mpr ⟨r, hr, rfl⟩⟩
  | _ => exact ⟨_, rfl⟩

theorem exists_decode_mkWord_iff (op : Opcode) (arg : Byte) (opd : Word64) :
    (∃ i, decode (mkWord op.code arg opd) = .ok i) ↔
      (op.shape.usesArg = false → arg = 0) ∧ (op.shape.usesOpd = false → opd = 0) ∧ arg.toNat ≤ op.argMax := by
  simp only [decode_mkWord_ok_iff]
  constructor
  · rintro ⟨i, harg, hopd, hmax, -⟩
    exact ⟨harg, hopd, hmax⟩
  · rintro ⟨harg, hopd, hmax⟩
    obtain ⟨i, hi⟩ := exists_withOperands hmax opd
    exact ⟨i, harg, hopd, hmax, hi⟩

end Sys2Proof

namespace Sys2Proof.Machine

open Sys2Proof.Claims

/-! ## The causes of `ERR_ILLEGAL` (R201) -/

theorem toNat_eq_zero_iff {n : Nat} (x : BitVec n) : x.toNat = 0 ↔ x = 0 := by
  rw [BitVec.toNat_eq, BitVec.ofNat_eq_ofNat, BitVec.toNat_zero]

theorem illegalWord_mkWord_iff (opc arg : Byte) (opd : Word64) :
    IllegalWord (mkWord opc arg opd) ↔ IllegalFields opc.toNat arg.toNat opd.toNat := by
  have hword : (mkWord opc arg opd).toNat = (opc.toNat * 2 ^ 8 + arg.toNat) * 2 ^ 64 + opd.toNat := by
    rw [mkWord, toNat_append_eq_add, toNat_append_eq_add]
  have hopc : (mkWord opc arg opd).toNat / 2 ^ 72 = opc.toNat := by omega
  have harg : (mkWord opc arg opd).toNat / 2 ^ 64 % 256 = arg.toNat := by omega
  have hopd : (mkWord opc arg opd).toNat % 2 ^ 64 = opd.toNat := by omega
  rw [IllegalWord, hopc, harg, hopd]

/-- On the row of a defined opcode the causes (b) to (d) are the checks of the decoder. -/
theorem illegalFields_code_iff (op : Opcode) (arg : Byte) (opd : Word64) :
    IllegalFields op.code.toNat arg.toNat opd.toNat ↔
      (arg ≠ 0 ∧ op.shape.usesArg = false) ∨ (opd ≠ 0 ∧ op.shape.usesOpd = false) ∨ op.argMax < arg.toNat := by
  have hdefined := (exists_code_iff op.code).mp ⟨op, rfl⟩
  rw [usesArg_eq_false_iff, usesOpd_eq_false_iff, argMax_lt_iff, IllegalFields,
    or_iff_right (not_not_intro hdefined), Ne, Ne, toNat_eq_zero_iff, toNat_eq_zero_iff]

theorem exists_decode_iff_not_illegalWord (w : CmdWord) : (∃ i, decode w = .ok i) ↔ ¬ IllegalWord w := by
  by_cases hcode : ∃ op : Opcode, op.code = cmdOpc w
  case pos =>
    obtain ⟨op, hop⟩ := hcode
    rw [← mkWord_fields w, ← hop, exists_decode_mkWord_iff, illegalWord_mkWord_iff, illegalFields_code_iff,
      ← not_lt]
    tauto
  case neg =>
    have hillegal : IllegalWord w := by
      rw [← mkWord_fields w, illegalWord_mkWord_iff]
      exact .inl ((exists_code_iff _).not.mp hcode)
    refine iff_of_false ?_ (not_not_intro hillegal)
    rintro ⟨i, hi⟩
    obtain ⟨op, hop, -⟩ := (decode_ok_iff w i).mp hi
    exact hcode ⟨op, code_of_ofCode hop⟩

/-! ## The first error of a command (R206) -/

/-- The checks of every command stand in the order R206 gives the errors; only the width is compared as a number in one
and as a word in the other. -/
theorem firstError_eq_errorOf (i : Instr) (s : State) : firstError i s = errorOf i s := by
  cases i with
  | crcPush | crcPushf | crcFinal | crcAppend =>
    simp only [firstError, toNat_eq_zero_iff s.crcWidth]
    rfl
  | _ => rfl

end Sys2Proof.Machine

namespace Sys2Proof.Proofs

open Sys2Proof.Machine Sys2Proof.Claims

/-- Settles O4: an opcode off the table has no row, and on its row the decoder's checks are the other causes. -/
theorem illegalWordsExactly : Obligations.IllegalWordsExactly := by
  refine ⟨exists_decode_iff_not_illegalWord, fun w hillegal => rejectedWord_of_not_ok fun i hi => ?_⟩
  exact (exists_decode_iff_not_illegalWord w).mp ⟨i, hi⟩ hillegal

/-- Settles O27: the first error that applies is the one the checks find; a command without one completes. -/
theorem commandsFailByFirstError : Obligations.CommandsFailByFirstError := by
  intro i s
  rw [firstError_eq_errorOf]
  exact ⟨fun e herr => exec_of_error herr, fun herr => ⟨completed i s, valueOf i s, exec_of_no_error herr,
    completed_rsp i s, completed_cmd i s, fun hi e => sticky_completed hi e s⟩⟩

/-- Settles O6: the idle case of the step's inversion lemmas. -/
theorem idleBlockHoldsState : Obligations.IdleBlockHoldsState := fun _ hcmd => step_idle hcmd

end Sys2Proof.Proofs
end

section
/-! PROOFS of the statements of `70_reset_and_hazards.md`: a run of commands is a fold over its words, and what holds
along it holds at its end. -/

namespace Sys2Proof.Machine

open Sys2Proof.Claims

/-! ## Runs as folds (R30, R59) -/

/-- The state word `w` leaves when it is accepted in `s`: that of the failure of R203, or that of the completed
command. CMD is as in `s`, so what waits behind the word does not matter. -/
def answer (s : State) (w : CmdWord) : State :=
  match decode w with
  | .error _ => afterFailure .illegal s
  | .ok i =>
    match errorOf i s with
    | some e => afterFailure e s
    | none => completed i s

theorem answer_of_decode_error {w : CmdWord} {d : DecodeError} (hd : decode w = .error d) (s : State) :
    answer s w = afterFailure .illegal s := by
  simp only [answer, hd]

theorem answer_of_error {s : State} {w : CmdWord} {i : Instr} {e : Err} (hd : decode w = .ok i)
    (herr : errorOf i s = some e) : answer s w = afterFailure e s := by
  simp only [answer, hd, herr]

theorem answer_of_no_error {s : State} {w : CmdWord} {i : Instr} (hd : decode w = .ok i)
    (herr : errorOf i s = none) : answer s w = completed i s := by
  simp only [answer, hd, herr]

theorem step_eq_answer (s : State) (w : CmdWord) (rest : List CmdWord) :
    step { s with cmd := w :: rest } = .next { answer s w with cmd := rest } := by
  cases hd : decode w with
  | error d =>
    rw [step_illegal rfl hd, fail_eq_afterFailure, answer_of_decode_error hd]
    rfl
  | ok i =>
    have haccept := errorOf_accept i s rest
    rw [step_legal rfl hd]
    cases herr : errorOf i s with
    | some e =>
      rw [answer_of_error hd herr]
      exact exec_of_error (haccept.trans herr)
    | none =>
      rw [answer_of_no_error hd herr, ← completed_accept]
      exact exec_of_no_error (haccept.trans herr)

/-- R250: a run takes its words one after the other and always ends. -/
theorem runWords_eq_foldl (ws : List CmdWord) (s : State) :
    runWords ws s = .next { ws.foldl answer s with cmd := [] } := by
  induction ws generalizing s with
  | nil => rfl
  | cons w ws ih => exact (runWords_cons (step_eq_answer s w ws) rfl).trans (ih (answer s w))

/-! ## One response a word, along a run (R209, R250) -/

theorem params_answer (s : State) (w : CmdWord) : (answer s w).params = s.params := by
  obtain ⟨t, -, -, hstep, -, hparams, -⟩ := Proofs.stepAnswersOneResponse { s with cmd := [w] } w [] rfl
  rw [step_eq_answer] at hstep
  cases hstep
  exact hparams

/-- O28 on the word alone: its response, and the flags it leaves. -/
theorem rsp_and_sticky_answer (s : State) (w : CmdWord) :
    ∃ r : Response, (answer s w).rsp = s.rsp ++ [r] ∧ ∀ e : Err, sticky e (answer s w) = true ↔
      r.code = .err e ∨ (sticky e s = true ∧ decode w ≠ .ok .sreset) := by
  have hcmd (e : Err) (t : State) (rest : List CmdWord) : sticky e { t with cmd := rest } = sticky e t := by
    cases e <;> rfl
  obtain ⟨hsteps, -⟩ := Proofs.stickyFlagsFollowFailures
  simpa only [hcmd] using hsteps { s with cmd := [w] } _ w [] rfl (step_eq_answer s w [])

theorem params_foldl_answer (ws : List CmdWord) (s : State) : (ws.foldl answer s).params = s.params :=
  List.foldlRecOn ws answer (motive := fun t => t.params = s.params) rfl
    fun t ht w _ => (params_answer t w).trans ht

theorem length_rsp_foldl_answer (ws : List CmdWord) (s : State) :
    (ws.foldl answer s).rsp.length = s.rsp.length + ws.length := by
  induction ws generalizing s with
  | nil => rfl
  | cons w ws ih =>
    obtain ⟨r, hrsp, -⟩ := rsp_and_sticky_answer s w
    rw [List.foldl_cons, ih, hrsp, List.length_append, List.length_singleton, List.length_cons]
    omega

/-! ## The flags and the responses of a run (R26, R251) -/

theorem noError_iff_forall_sticky (s : State) : s.NoError ↔ ∀ e : Err, ¬ sticky e s = true := by
  constructor
  · rintro ⟨hillegal, hconfig, hrange⟩ e
    cases e <;> simpa [sticky]
  · intro h
    exact ⟨Bool.eq_false_iff.mpr (h .illegal), Bool.eq_false_iff.mpr (h .config), Bool.eq_false_iff.mpr (h .range)⟩

theorem code_eq_ok_iff (c : Code) : c = .ok ↔ ∀ e : Err, c ≠ .err e := by
  cases c <;> simp

/-- Of the two records of an error, `SRESET` clears the flags only (R192). -/
theorem allOk_and_noError_answer (s : State) (w : CmdWord) :
    ∃ r : Response, ((answer s w).allOk = true ↔ s.allOk = true ∧ r.code = .ok) ∧
      ((answer s w).NoError ↔ r.code = .ok ∧ (decode w ≠ .ok .sreset → s.NoError)) := by
  obtain ⟨r, hrsp, hsticky⟩ := rsp_and_sticky_answer s w
  refine ⟨r, by simp [State.allOk, hrsp], ?_⟩
  simp only [noError_iff_forall_sticky, hsticky, code_eq_ok_iff, not_or, not_and, forall_and]
  exact and_congr_right fun _ => ⟨fun h hne e he => h e he hne, fun h e he hne => h hne e he⟩

theorem noError_of_allOk_foldl_answer (ws : List CmdWord) {s : State} (hs : s.allOk = true → s.NoError) :
    (ws.foldl answer s).allOk = true → (ws.foldl answer s).NoError :=
  List.foldlRecOn ws answer (motive := fun t => t.allOk = true → t.NoError) hs fun t ht w _ => by
    obtain ⟨r, hallOk, hnoError⟩ := allOk_and_noError_answer t w
    rw [hallOk, hnoError]
    exact fun ⟨hold, hr⟩ => ⟨hr, fun _ => ht hold⟩

theorem allOk_of_noError_foldl_answer {ws : List CmdWord} (hws : ∀ w ∈ ws, decode w ≠ .ok .sreset) {s : State}
    (hs : s.NoError → s.allOk = true) : (ws.foldl answer s).NoError → (ws.foldl answer s).allOk = true :=
  List.foldlRecOn ws answer (motive := fun t => t.NoError → t.allOk = true) hs fun t ht w hw => by
    obtain ⟨r, hallOk, hnoError⟩ := allOk_and_noError_answer t w
    rw [hallOk, hnoError]
    exact fun ⟨hr, hflags⟩ => ⟨ht (hflags (hws w hw)), hr⟩

/-! ## The checksum after `CRC_APPEND` (R247) -/

/-- The flush is computed on a copy and the checksum's bits are not absorbed (R115, R116). -/
theorem flush_completed_crcAppend (s : State) : flush (completed .crcAppend s) = flush s := rfl

end Sys2Proof.Machine

namespace Sys2Proof.Proofs

open Sys2Proof.Machine Sys2Proof.Claims

/-- Settles O8: a run is the fold of `answer` over its words, and a fold splits where the list does. -/
theorem runAnswersEveryCommand : Obligations.RunAnswersEveryCommand := by
  intro ws vs s
  refine ⟨_, runWords_eq_foldl ws s, rfl, length_rsp_foldl_answer ws s, params_foldl_answer ws s, ?_⟩
  have hsplit : runWords (ws ++ vs) s = runWords vs (ws.foldl answer s) := by
    rw [runWords_eq_foldl, runWords_eq_foldl, List.foldl_append]
  -- What waits in CMD when `vs` starts is dropped by `runWords`.
  exact hsplit

/-- Settles O29: every word's response and flag agree, and no word but `SRESET` clears a flag. -/
theorem flagsAgreeWithResponses : Obligations.FlagsAgreeWithResponses :=
  fun p ws => ⟨_, runWords_eq_foldl ws (State.resetWith p),
    noError_of_allOk_foldl_answer ws fun _ => ⟨rfl, rfl, rfl⟩,
    fun hws => allOk_of_noError_foldl_answer hws fun _ => rfl⟩

/-- Settles O23: `CRC_APPEND` keeps the configuration and `CRC_REG`, so `CRC_FINAL` flushes the same register. -/
theorem finalAfterAppendRepeats : Obligations.FinalAfterAppendRepeats := by
  intro s _ hw
  have hconfigured (t : State) (ht : t.crcWidth = s.crcWidth) : unconfiguredError t = none :=
    (unconfiguredError_none_iff t).mpr (ht ▸ hw)
  refine ⟨flush s, completed .crcAppend s, completed .crcFinal (completed .crcAppend s),
    exec_of_no_error (hconfigured s rfl), exec_of_no_error (hconfigured _ rfl), ?_, rfl, rfl, ?_⟩
  · simp [valueOf, flush_completed_crcAppend]
  · simp [emissionOf, runsBits]

/-- Settles O56: hardware reset is the reset state of the parameter, which it keeps. -/
theorem hardwareResetEmptiesStreams : Obligations.HardwareResetEmptiesStreams :=
  ⟨fun s => ⟨hardwareReset_cmd s, hardwareReset_out s, hardwareReset_rsp s⟩, fun _ => rfl⟩

end Sys2Proof.Proofs
end
